-- ==== Sys2Proof/Config.lean ====
section
/-! DEFINITION. The parameters of the block (spec/00_scope.md R6), each a constant.
The spec leaves no result undefined, so there is no free value here. -/

namespace Sys2Proof.Config

/-- OPW, the width of each operand N, P, Q, R (R6). The spec leaves it a parameter with default 32 (D2, U8).
DESIGN CHOICE: 32, the width of the opcode table (log 1). -/
abbrev opw : Nat := 32

/-- The least OPW that keeps every error cause reachable (R6). -/
abbrev minOpw : Nat := 21

/-- SCALE, the fixed-point scale (R6). -/
abbrev scale : Nat := 128

/-- BIAS, the constant subtracted in P1 (R6). -/
abbrev bias : Nat := 512

/-- DIV4_N, the integer part the detector looks for (R6). -/
abbrev div4N : Nat := 4

/-- The largest value of the 18-bit field P1 (R6, R60). -/
abbrev p1Max : Nat := 262143

/-- The largest value of the 20-bit field P2 (R6, R60). -/
abbrev p2Max : Nat := 1048575

/-- The largest value of the 20-bit field P3 (R6, R60). -/
abbrev p3Max : Nat := 1048575

end Sys2Proof.Config
end

