-- ==== Sys2Proof/Word.lean ====
section
/-! DEFINITION. The bit-vector types of the block: the packed fields, the cause mask and the command word. -/

namespace Sys2Proof

/-- P1W = 18 bits (R6). -/
abbrev P1Field := BitVec 18

/-- P2W = 20 bits (R6). -/
abbrev P2Field := BitVec 20

/-- P3W = 20 bits (R6). -/
abbrev P3Field := BitVec 20

/-- RDIVW = 3 bits (R6). -/
abbrev RdivField := BitVec 3

/-- ECAUSEW = 5 bits (R6, R17). -/
abbrev CauseMask := BitVec 5

/-- The length of a command word, 1 + 4·OPW bits (R42). -/
abbrev commandBits (opw : Nat) : Nat := 1 + 4 * opw

/-- The canonical command word, `{OP, R, Q, P, N}` (R42). A bit string, without byte order (R32). -/
abbrev CommandWord (opw : Nat) := BitVec (commandBits opw)

end Sys2Proof
end

