-- ==== Sys2Proof/Syntax.lean ====
section
/-! DEFINITION. The commands of the block, as syntax (spec/30_encoding.md R40, R41, R47). -/

namespace Sys2Proof

/-- A command: the record of R40, one constructor for each value of OP.
The operands are the numbers n, p, q, r of R44, without a width (log 6); WellFormed.lean bounds them by OPW.
Both commands carry all four operand fields of the record, also the ignored R field of ENCPLL, so that decoding loses no bit (R40, R46). -/
inductive Instr where
  /-- `ENCPLL n, p, q` (R70); `r` is the ignored field R (R48). -/
  | encpll (n p q r : Nat)
  /-- `ENCMS n, p, q, r` (R75). -/
  | encms (n p q r : Nat)
  deriving DecidableEq, Repr

/-- The two variants of the encoding that the source's sum type names (R47, R76, C9). -/
inductive Variant where
  | generalRatio
  | divideByFourSentinel
  deriving DecidableEq, Repr

/-- Why a bit string, given as a number, is not a command. -/
inductive DecodeRefusal where
  /-- The number has a bit beyond the one command length of R43. Raised by `decodeBits` only; safe. -/
  | longerThanACommandWord
  deriving DecidableEq, Repr

end Sys2Proof
end

