-- ==== Sys2Proof/WellFormed.lean ====
section
/-! DEFINITION. Well-formed commands: every operand is unsigned and fits OPW bits (spec/30_encoding.md R40, R44).
There is no other check: no command word is illegal or reserved (R48). -/

namespace Sys2Proof

/-- `x` is a value of an operand field of OPW bits (R44). -/
def fitsOperand (opw x : Nat) : Bool := decide (x < 2 ^ opw)

/-- Each of N, P, Q, R fits OPW bits (R40, R44). -/
def Instr.wellFormed (opw : Nat) : Instr → Bool
  | .encpll n p q r => fitsOperand opw n && fitsOperand opw p && fitsOperand opw q && fitsOperand opw r
  | .encms n p q r => fitsOperand opw n && fitsOperand opw p && fitsOperand opw q && fitsOperand opw r

end Sys2Proof
end

