-- ==== Sys2Proof/Decode.lean ====
section
/-! DEFINITION. The command word: decoder and encoder (spec/30_encoding.md R42 to R46), for any OPW,
and the host's table words, which are read at OPW = Config.opw. -/

namespace Sys2Proof

/-- Operand field `k` of a word, as an unsigned number: bits (k+1)·OPW − 1 down to k·OPW (R42, R44). -/
def operandField (opw k : Nat) (w : CommandWord opw) : Nat := (w.extractLsb' (k * opw) opw).toNat

/-- Field N, the least significant (R42). -/
def fieldN (opw : Nat) (w : CommandWord opw) : Nat := operandField opw 0 w

/-- Field P (R42). -/
def fieldP (opw : Nat) (w : CommandWord opw) : Nat := operandField opw 1 w

/-- Field Q (R42). -/
def fieldQ (opw : Nat) (w : CommandWord opw) : Nat := operandField opw 2 w

/-- Field R (R42). -/
def fieldR (opw : Nat) (w : CommandWord opw) : Nat := operandField opw 3 w

/-- Field OP, bit 4·OPW of the word (R42): true is 1, ENCMS (R45). -/
def fieldOp (opw : Nat) (w : CommandWord opw) : Bool := w.getLsbD (4 * opw)

/-- Decoding is total and is by OP alone (R45, R46). Divide-by-4 mode is not an opcode (R47). -/
def decode (opw : Nat) (w : CommandWord opw) : Instr :=
  if fieldOp opw w then .encms (fieldN opw w) (fieldP opw w) (fieldQ opw w) (fieldR opw w)
  else .encpll (fieldN opw w) (fieldP opw w) (fieldQ opw w) (fieldR opw w)

/-- A number with more bits than a command word is refused by name; every other number is a word and decodes (R43, R46). -/
def decodeBits (opw w : Nat) : Except DecodeRefusal Instr :=
  if w < 2 ^ commandBits opw then .ok (decode opw (BitVec.ofNat (commandBits opw) w))
  else .error .longerThanACommandWord

/-- `CMD = {OP, R, Q, P, N}` (R42, R46). -/
def packWord (opw : Nat) (op : Bool) (n p q r : Nat) : CommandWord opw :=
  (BitVec.ofBool op ++ BitVec.ofNat opw r ++ BitVec.ofNat opw q ++ BitVec.ofNat opw p ++ BitVec.ofNat opw n).cast
    (by unfold commandBits; omega)

/-- The word of a command (R46). -/
def encode (opw : Nat) : Instr → CommandWord opw
  | .encpll n p q r => packWord opw false n p q r
  | .encms n p q r => packWord opw true n p q r

/-- The bits of a table word: every bit from `nbits` up is 0 (log 8). -/
def tableBits (nbits w : Nat) : Nat := w % 2 ^ nbits

/-- The instruction the decoder reads from an opcode-table word; none where the bits are longer than a command word (log 8). -/
def decodeTableWord (nbits w : Nat) : Option Instr := (decodeBits Config.opw (tableBits nbits w)).toOption

/-- A row's match and mask select a word when `w AND mask = match` (R45). -/
def rowSelects {opw : Nat} (mask pattern w : CommandWord opw) : Bool := (w &&& mask) == pattern

/-- The mask of both rows: the OP bit alone (R45). -/
def rowMask (opw : Nat) : CommandWord opw := packWord opw true 0 0 0 0

/-- The match of ENCPLL's row (R45). -/
def encpllMatch (opw : Nat) : CommandWord opw := 0#(commandBits opw)

/-- The match of ENCMS's row (R45). -/
def encmsMatch (opw : Nat) : CommandWord opw := packWord opw true 0 0 0 0

end Sys2Proof
end

