-- ==== Sys2Proof/Machine/State.lean ====
section
/-! DEFINITION. The state of the machine: the result register RES (spec/10_state.md), and the host's side of the
interface, which the model holds as two lists of its own (log 2, log 4). -/

namespace Sys2Proof.Machine

/-- The source's PackedRegisterFields: the three fields GENPACK returns (R9, R55). -/
structure PackedFields where
  p1 : P1Field
  p2 : P2Field
  p3 : P3Field
  deriving DecidableEq, Repr

/-- The six fields of a good result (R13, R14). -/
structure Fields where
  packed : PackedFields
  /-- the source's divideByFourFlag -/
  div4 : Bool
  /-- the source's integerModeFlag (INT) -/
  int : Bool
  /-- log2 of the post-divider -/
  rdiv : RdivField
  deriving DecidableEq, Repr

/-- RES holds exactly one of three alternatives (R13). In `empty` and `err` no data field has a value (R16). -/
inductive Res where
  | empty
  | ok (f : Fields)
  | err (ecause : CauseMask)
  deriving DecidableEq, Repr

/-- The output ports of RES, one for each field of the table of R14. -/
inductive Port where
  | valid | err | ecause | p1 | p2 | p3 | div4 | int | rdiv
  deriving DecidableEq, Repr

/-- What the host can do, and nothing else (R138). -/
inductive HostAction where
  /-- present a command, as its canonical word (R42) -/
  | present (w : CommandWord Config.opw)
  /-- read RES, whole (R34) -/
  | read
  /-- read RES through one of its output ports (R14; log 5) -/
  | readPort (p : Port)
  /-- assert reset (R130) -/
  | reset
  deriving DecidableEq, Repr

/-- What one read of the host returned (log 4): all of RES, or the number on one port (R32). -/
inductive Observation where
  | whole (r : Res)
  | port (p : Port) (value : Nat)
  deriving DecidableEq, Repr

/-- The state. `res` is the block's only architectural state (R12).
`pending` and `seen` are the model's own: the host's actions still to come, oldest first (log 2), and what its reads have
returned, oldest first (log 4). -/
structure State where
  res : Res
  pending : List HostAction
  seen : List Observation
  deriving DecidableEq, Repr

/-- The reasons the machine stops with a fault. No command is one of them (R118). -/
inductive Fault where
  /-- Raised by the host's read of the data port `p` while VALID = 0 (R16, R120, U1).
  Safe: the port has no value, and the model goes no further (log 5). -/
  | dataPortWithoutValue (p : Port)
  deriving DecidableEq, Repr

/-- The reasons a step can be refused. -/
inductive Refusal where
  /-- Raised by a rejected arm of `exec` only, and every command has its meaning, so by nothing. Safe. -/
  | notModelled (mnemonic : String)
  deriving DecidableEq, Repr

/-- After reset RES is Empty (R21, R130). DESIGN CHOICE: no host action is pending (log 2) and nothing has been read (log 4). -/
def State.reset : State := { res := .empty, pending := [], seen := [] }

end Sys2Proof.Machine
end

