-- ==== Sys2Proof/Machine/Flags.lean ====
section
/-! DEFINITION. The flags and the cause mask: INT and DIV4 (spec/10_state.md R18), the cause bits (R17) and the bounds
tests that set them (spec/40_general_formula.md R60). -/

namespace Sys2Proof.Machine

/-- Bit 0, EC_P1: P1 out of range (R17). -/
def ecP1 : CauseMask := 0b00001#5

/-- Bit 1, EC_P2: P2 out of range (R17). -/
def ecP2 : CauseMask := 0b00010#5

/-- Bit 2, EC_P3: P3 out of range (R17). -/
def ecP3 : CauseMask := 0b00100#5

/-- Bit 3, EC_DIV0: zero denominator (R17). -/
def ecDiv0 : CauseMask := 0b01000#5

/-- Bit 4, EC_RDIV: unencodable post-divider (R17). -/
def ecRdiv : CauseMask := 0b10000#5

/-- A cause bit is set exactly when its check failed (R17). -/
def causeBit (failed : Bool) (bit : CauseMask) : CauseMask := if failed then bit else 0#5

/-- The P1 test fails: t1 < 0 or t1 > 2^18 − 1 (R60). -/
def p1Exceeds (t1 : Int) : Bool := decide (t1 < 0) || decide ((Config.p1Max : Int) < t1)

/-- The P2 test fails: t2 > 2^20 − 1 (R60). -/
def p2Exceeds (t2 : Nat) : Bool := decide (Config.p2Max < t2)

/-- The P3 test fails: t3 > 2^20 − 1 (R60). -/
def p3Exceeds (t3 : Nat) : Bool := decide (Config.p3Max < t3)

/-- All three tests are made, and each failing one sets its own bit (R60). -/
def boundsMask (t1 : Int) (t2 t3 : Nat) : CauseMask :=
  causeBit (p1Exceeds t1) ecP1 ||| causeBit (p2Exceeds t2) ecP2 ||| causeBit (p3Exceeds t3) ecP3

/-- INT of ENCMS: the numerator operand, as presented, is 0 (R79). -/
def intFlag (p : Nat) : Bool := decide (p = 0)

/-- DIV4 is the detector's tag made visible (R76, C9). -/
def div4Flag : Variant → Bool
  | .generalRatio => false
  | .divideByFourSentinel => true

end Sys2Proof.Machine
end

