-- ==== Sys2Proof/Machine/Formula.lean ====
section
/-! DEFINITION. The shared datapath: GENPACK and RDIVENC (spec/40_general_formula.md).
Exact arithmetic on naturals and, for the one subtraction of 512, integers; nothing wraps (R61). -/

namespace Sys2Proof.Machine

/-- k = floor(128·p / q), for q ≠ 0 (R57). -/
def scaledFraction (p q : Nat) : Nat := (Config.scale * p) / q

/-- t1 = 128·n + k − 512, a signed integer (R58). -/
def packT1 (n p q : Nat) : Int := (Config.scale * n + scaledFraction p q : Nat) - (Config.bias : Int)

/-- t2 = 128·p − q·k, never negative for q ≠ 0 (R59). -/
def packT2 (p q : Nat) : Nat := Config.scale * p - q * scaledFraction p q

/-- t3 = q, the denominator as given: no reduction (R59, R65). -/
def packT3 (q : Nat) : Nat := q

/-- The fields of in-range values (R60). -/
def narrow (t1 : Int) (t2 t3 : Nat) : PackedFields :=
  { p1 := BitVec.ofNat 18 t1.toNat, p2 := BitVec.ofNat 20 t2, p3 := BitVec.ofNat 20 t3 }

/-- The fields when no bounds test fails, and otherwise the mask (R55, R60). -/
def boundedFields (t1 : Int) (t2 t3 : Nat) : Except CauseMask PackedFields :=
  if boundsMask t1 t2 t3 = 0#5 then .ok (narrow t1 t2 t3) else .error (boundsMask t1 t2 t3)

/-- GENPACK (R55): a zero denominator stops it before anything is computed (R56); otherwise three values and three tests. -/
def genpack (n p q : Nat) : Except CauseMask PackedFields :=
  if q = 0 then .error ecDiv0 else boundedFields (packT1 n p q) (packT2 p q) (packT3 q)

/-- The post-dividers that can be encoded (R66). -/
def encodableDividers : List Nat := [1, 2, 4, 8, 16, 32, 64, 128]

/-- RDIVENC (R66): the logarithm of an encodable post-divider, and EC_RDIV for any other. -/
def rdivenc (r : Nat) : Except CauseMask RdivField :=
  if r ∈ encodableDividers then .ok (BitVec.ofNat 3 (Nat.log2 r)) else .error ecRdiv

/-- "mask of g, or 0 if g is Fields" (R75). -/
def maskOf {α : Type} : Except CauseMask α → CauseMask
  | .ok _ => 0#5
  | .error m => m

/-- SENTINEL, the fixed triple of divide-by-4 mode (R6, R77). -/
def sentinel : PackedFields := { p1 := 0#18, p2 := 0#20, p3 := 1#20 }

end Sys2Proof.Machine
end

