-- ==== Sys2Proof/Machine/Operands.lean ====
section
/-! DEFINITION. The operands of a command: the fields of the record (spec/30_encoding.md R40, R41), the detector that reads
two of them (spec/42_encms.md R76), and which of them a command ignores (R48). -/

namespace Sys2Proof.Machine

/-- CMD.OP: false is 0, ENCPLL; true is 1, ENCMS (R40). -/
def opOf : Instr → Bool
  | .encpll _ _ _ _ => false
  | .encms _ _ _ _ => true

/-- CMD.N, the integer part (R40). -/
def nOf : Instr → Nat
  | .encpll n _ _ _ => n
  | .encms n _ _ _ => n

/-- CMD.P, the numerator (R40). -/
def pOf : Instr → Nat
  | .encpll _ p _ _ => p
  | .encms _ p _ _ => p

/-- CMD.Q, the denominator (R40). -/
def qOf : Instr → Nat
  | .encpll _ _ q _ => q
  | .encms _ _ q _ => q

/-- CMD.R, the post-divider as the divider value (R40, R44). -/
def rOf : Instr → Nat
  | .encpll _ _ _ r => r
  | .encms _ _ _ r => r

/-- The detector of an ENCMS command: a comparator on the whole of N, and on nothing else (R76). -/
def msVariant (n : Nat) : Variant := if n = Config.div4N then .divideByFourSentinel else .generalRatio

/-- The detector over all commands: never active for ENCPLL (R47, R76). -/
def variantOf : Instr → Variant
  | .encpll _ _ _ _ => .generalRatio
  | .encms n _ _ _ => msVariant n

/-- The command with 0 in every operand field it ignores (R48). -/
def withoutIgnored : Instr → Instr
  | .encpll n p q _ => .encpll n p q 0
  | .encms n p q r =>
    match msVariant n with
    | .divideByFourSentinel => .encms n p 0 0
    | .generalRatio => .encms n p q r

end Sys2Proof.Machine
end

