-- ==== Sys2Proof/Machine/Ops.lean ====
section
/-! DEFINITION. The named operations on RES: the one write, the two ways a command ends, and the reads of its ports
(spec/10_state.md R13 to R20, spec/60_exceptions.md R112). -/

namespace Sys2Proof.Machine

/-- RES is written whole: the alternative and every field together (R20). -/
def writeRes (r : Res) (s : State) : State := { s with res := r }

/-- `RES <- Ok{…}` ends a command that succeeded (R8). -/
def writeOk (f : Fields) (s : State) : Host.Outcome State Fault Refusal := .next (writeRes (.ok f) s)

/-- `raise EncodingOverflow(mask)`, the block's one exception: `RES <- Err(mask)` and the end of the command (R8, R112).
Nothing is saved, no mode changes and control goes nowhere, for there is nothing to save, no mode and no program counter.
There is no return from it: the next command runs like any other (R114). -/
def raiseEncodingOverflow (mask : CauseMask) (s : State) : Host.Outcome State Fault Refusal :=
  .next (writeRes (.err mask) s)

/-- RES.VALID: 1 exactly when RES is Ok (R14, R15). -/
def Res.valid : Res → Bool
  | .empty => false
  | .ok _ => true
  | .err _ => false

/-- RES.ERR: 1 exactly when RES is Err (R14, R15). -/
def Res.isErr : Res → Bool
  | .empty => false
  | .ok _ => false
  | .err _ => true

/-- RES.ECAUSE: the mask when ERR = 1, and 0 otherwise (R14). -/
def Res.ecause : Res → CauseMask
  | .empty => 0#5
  | .ok _ => 0#5
  | .err m => m

/-- The data fields of RES: they have values only in Ok (R16). -/
def Res.fields : Res → Option Fields
  | .empty => none
  | .ok f => some f
  | .err _ => none

/-- The ports that carry a data field, whose value exists only while VALID = 1 (R16). -/
def Port.isData : Port → Bool
  | .valid => false
  | .err => false
  | .ecause => false
  | .p1 => true
  | .p2 => true
  | .p3 => true
  | .div4 => true
  | .int => true
  | .rdiv => true

/-- The value on a port, as an unsigned number (R14, R32); none on a data port while VALID = 0 (R16). -/
def portValue (r : Res) : Port → Option Nat
  | .valid => some r.valid.toNat
  | .err => some r.isErr.toNat
  | .ecause => some r.ecause.toNat
  | .p1 => r.fields.map fun f => f.packed.p1.toNat
  | .p2 => r.fields.map fun f => f.packed.p2.toNat
  | .p3 => r.fields.map fun f => f.packed.p3.toNat
  | .div4 => r.fields.map fun f => f.div4.toNat
  | .int => r.fields.map fun f => f.int.toNat
  | .rdiv => r.fields.map fun f => f.rdiv.toNat

/-- The host notes what a read returned (log 4); the block is not changed by a read (R34). -/
def observe (o : Observation) (s : State) : State := { s with seen := s.seen ++ [o] }

/-- The host reads the port `p` of RES: its value where it has one, and a fault where it has none (R16, R120; log 5). -/
def readPort (p : Port) (s : State) : Host.Outcome State Fault Refusal :=
  match portValue s.res p with
  | some v => .next (observe (.port p v) s)
  | none => .fault (.dataPortWithoutValue p)

/-- The host reads all of RES (R34). -/
def readRes (s : State) : Host.Outcome State Fault Refusal := .next (observe (.whole s.res) s)

/-- The reset input: RES becomes Empty and nothing else happens (R130). -/
def assertReset (s : State) : Host.Outcome State Fault Refusal := .next (writeRes .empty s)

end Sys2Proof.Machine
end

