-- ==== Sys2Proof/Machine/Multisynth.lean ====
section
/-! DEFINITION. ENCMS, the multisynth encoder with the divide-by-4 sentinel detector (spec/42_encms.md). -/

namespace Sys2Proof.Machine

/-- The sentinel path: the fixed triple, DIV4 = 1, RDIV forced to 0, INT from the numerator as presented (R77, R79). -/
def sentinelFields (p : Nat) : Fields :=
  { packed := sentinel, div4 := div4Flag .divideByFourSentinel, int := intFlag p, rdiv := 0#3 }

/-- The good result of the general path: DIV4 = 0, INT from the numerator, RDIV = log2(R) (R78, R79). -/
def generalFields (p : Nat) (g : PackedFields) (rd : RdivField) : Fields :=
  { packed := g, div4 := div4Flag .generalRatio, int := intFlag p, rdiv := rd }

/-- The general path: both parts are evaluated, and the mask is the OR of what failed in either (R78, R83). -/
def execGeneral (p : Nat) (g : Except CauseMask PackedFields) (d : Except CauseMask RdivField) (s : State) :
    Host.Outcome State Fault Refusal :=
  match g, d with
  | .ok g, .ok rd => writeOk (generalFields p g rd) s
  | g, d => raiseEncodingOverflow (maskOf g ||| maskOf d) s

/-- ENCMS n, p, q, r (R75). With N = 4 the operands Q and R have no effect and no error can arise (R77, R80). -/
def execEncms (n p q r : Nat) (s : State) : Host.Outcome State Fault Refusal :=
  match msVariant n with
  | .divideByFourSentinel => writeOk (sentinelFields p) s
  | .generalRatio => execGeneral p (genpack n p q) (rdivenc r) s

end Sys2Proof.Machine
end

