-- ==== Sys2Proof/Machine/Pll.lean ====
section
/-! DEFINITION. ENCPLL, the PLL feedback-ratio encoder (spec/41_encpll.md). -/

namespace Sys2Proof.Machine

/-- The good result of ENCPLL: the three fields, with DIV4 = 0, INT = 0 and RDIV = 0 (R70). -/
def pllFields (g : PackedFields) : Fields := { packed := g, div4 := false, int := false, rdiv := 0#3 }

/-- ENCPLL n, p, q (R70): GENPACK on every operand, also with N = 4 (R72), and no check of its own (R71).
The field R is ignored (R48). -/
def execEncpll (n p q _r : Nat) (s : State) : Host.Outcome State Fault Refusal :=
  match genpack n p q with
  | .ok g => writeOk (pllFields g) s
  | .error m => raiseEncodingOverflow m s

end Sys2Proof.Machine
end

