-- ==== Sys2Proof/Machine/Dispatch.lean ====
section
/-! DEFINITION. One arm per command (spec/opcode_table.json). -/

namespace Sys2Proof.Machine

def exec (i : Instr) (s : State) : Host.Outcome State Fault Refusal :=
  match i with
  | .encpll n p q r => Sys2Proof.Machine.execEncpll n p q r s
  | .encms n p q r => Sys2Proof.Machine.execEncms n p q r s

end Sys2Proof.Machine
end

