-- ==== Sys2Proof/Machine/HostPort.lean ====
section
/-! DEFINITION. The host interface (spec/70_reset_and_hazards.md R138): what each of the host's actions does to the block,
and how the next one is taken from the list that stands for the host's inputs (log 2). -/

namespace Sys2Proof.Machine

/-- One action of the host, as one atomic step (R131, R135, R138). -/
def perform (a : HostAction) (s : State) : Host.Outcome State Fault Refusal :=
  match a with
  | .present w => exec (decode Config.opw w) s
  | .read => readRes s
  | .readPort p => readPort p s
  | .reset => assertReset s

/-- The host's next action, and the state with that action taken from the list; none when the host does nothing (log 2). -/
def fetch (s : State) : Option (HostAction × State) :=
  match s.pending with
  | [] => none
  | a :: rest => some (a, { s with pending := rest })

/-- With no action of the host the block keeps RES as it is (R34; log 3). -/
def idle (s : State) : Host.Outcome State Fault Refusal := .next s

/-- Put an action first among the host's pending actions. -/
def presentNext (a : HostAction) (s : State) : State := { s with pending := a :: s.pending }

/-- The host presents the command of an opcode-table word next; bits that are longer than a command word are not a
command and nothing is presented (log 8). -/
def presentTableWord (nbits w : Nat) (s : State) : State :=
  if tableBits nbits w < 2 ^ commandBits Config.opw then
    presentNext (.present (BitVec.ofNat (commandBits Config.opw) (tableBits nbits w))) s
  else s

end Sys2Proof.Machine
end

