-- ==== Sys2Proof/Machine/Step.lean ====
section
/-! DEFINITION. One step of the machine: the host's next action (spec/20_memory.md R35, spec/70_reset_and_hazards.md R135). -/

namespace Sys2Proof.Machine

/-- One step performs the host's next action; with none the block is idle (log 3). -/
def step (s : State) : Host.Outcome State Fault Refusal :=
  match fetch s with
  | none => idle s
  | some (a, s') => perform a s'

/-- The state in which the very next step runs the command of an opcode-table word: the host presents it next (log 2). -/
def State.withFetchWord (s : State) (nbits w : Nat) : State := presentTableWord nbits w s

end Sys2Proof.Machine
end

