-- ==== Sys2Proof/Machine/Asm.lean ====
section
/-! DEFINITION. The assembly spelling of the commands (spec/30_encoding.md R49, R50): one line, one command.
A line is a list of characters. What R49 leaves open of the lexical form is in log 11. -/

namespace Sys2Proof.Machine

/-- Why a line does not assemble (log 11). -/
inductive AsmError where
  /-- the first word is not ENCPLL or ENCMS; there are no pseudo-instructions (R50) -/
  | unknownMnemonic
  /-- not the operands of the command: the wrong number of them, or one that is no unsigned number (R49) -/
  | badOperands
  /-- an operand that does not fit OPW bits (R44) -/
  | operandTooWide
  deriving DecidableEq, Repr

/-- Space and tab separate words (log 11). -/
def isBlank (c : Char) : Bool := c == ' ' || c == '\t'

/-- A line without the blanks at its two ends. -/
def trimBlanks (t : List Char) : List Char := ((t.dropWhile isBlank).reverse.dropWhile isBlank).reverse

/-- The text before the comment: `;` starts one (R49). -/
def stripComment (t : List Char) : List Char := t.takeWhile fun c => c != ';'

/-- The parts of a text between commas. -/
def splitCommas : List Char → List (List Char)
  | [] => [[]]
  | c :: t =>
    if c = ',' then [] :: splitCommas t
    else
      match splitCommas t with
      | [] => [[c]]
      | w :: ws => (c :: w) :: ws

/-- A decimal number: one digit or more (R49). -/
def decimal (t : List Char) : Option Nat :=
  if t ≠ [] ∧ t.all Char.isDigit then some (Nat.ofDigitChars 10 t 0) else none

/-- The value of a hexadecimal digit, in either case (log 11). -/
def hexDigit (c : Char) : Option Nat :=
  if c.isDigit then some (c.toNat - 48)
  else if 'a' ≤ c ∧ c ≤ 'f' then some (c.toNat - 87)
  else if 'A' ≤ c ∧ c ≤ 'F' then some (c.toNat - 55)
  else none

/-- The number that hexadecimal digits continue. -/
def hexFrom : Nat → List Char → Option Nat
  | acc, [] => some acc
  | acc, c :: t =>
    match hexDigit c with
    | some d => hexFrom (16 * acc + d) t
    | none => none

/-- A hexadecimal number without its `0x`: one digit or more. -/
def hexadecimal (t : List Char) : Option Nat := if t = [] then none else hexFrom 0 t

/-- An operand: an unsigned number in decimal, or in hexadecimal after `0x` (R49). -/
def number (t : List Char) : Option Nat :=
  match t with
  | '0' :: 'x' :: ds => hexadecimal ds
  | _ => decimal t

/-- The mnemonic of the PLL encoder. -/
def pllMnemonic : List Char := ['E', 'N', 'C', 'P', 'L', 'L']

/-- The mnemonic of the multisynth encoder. -/
def msMnemonic : List Char := ['E', 'N', 'C', 'M', 'S']

/-- The operands of a line: the text after the mnemonic, cut at commas. -/
def operandTexts (t : List Char) : List (Option Nat) := (splitCommas t).map fun w => number (trimBlanks w)

/-- A command whose operands fit OPW bits (R44). -/
def checkWidths (opw : Nat) (i : Instr) : Except AsmError (Option Instr) :=
  if i.wellFormed opw then .ok (some i) else .error .operandTooWide

/-- A mnemonic with its operands (R49): ENCPLL writes 0 in the ignored field R. -/
def assembleCommand (opw : Nat) (mnemonic : List Char) (ops : List (Option Nat)) : Except AsmError (Option Instr) :=
  if mnemonic = pllMnemonic then
    match ops with
    | [some n, some p, some q] => checkWidths opw (.encpll n p q 0)
    | _ => .error .badOperands
  else if mnemonic = msMnemonic then
    match ops with
    | [some n, some p, some q, some r] => checkWidths opw (.encms n p q r)
    | _ => .error .badOperands
  else .error .unknownMnemonic

/-- The words of a line: the mnemonic up to the first blank, then the operands. -/
def assembleCode (opw : Nat) (code : List Char) : Except AsmError (Option Instr) :=
  if code = [] then .ok none
  else
    assembleCommand opw (code.takeWhile fun c => !isBlank c) (operandTexts (code.dropWhile fun c => !isBlank c))

/-- One line: at most one command, and a comment (R49). A line without a command assembles to none (log 11). -/
def assembleLine (opw : Nat) (line : List Char) : Except AsmError (Option Instr) :=
  assembleCode opw (trimBlanks (stripComment line))

/-- A program: the commands of its lines, in order. -/
def assemble (opw : Nat) : List (List Char) → Except AsmError (List Instr)
  | [] => .ok []
  | line :: rest =>
    match assembleLine opw line, assemble opw rest with
    | .error e, _ => .error e
    | .ok _, .error e => .error e
    | .ok none, .ok is => .ok is
    | .ok (some i), .ok is => .ok (i :: is)

/-- A number in decimal. -/
def showNat (n : Nat) : List Char := Nat.toDigits 10 n

/-- Operands, separated by a comma and a space (R49). -/
def showOperands : List Nat → List Char
  | [] => []
  | [x] => showNat x
  | x :: xs => showNat x ++ [',', ' '] ++ showOperands xs

/-- The comment that keeps an ignored field R which is not 0 (R49). -/
def ignoredComment (r : Nat) : List Char :=
  if r = 0 then [] else [' ', ';', ' ', 'R', '='] ++ showNat r ++ [' ', 'i', 'g', 'n', 'o', 'r', 'e', 'd']

/-- The disassembler: printing loses no bit (R49). -/
def disassemble : Instr → List Char
  | .encpll n p q r => pllMnemonic ++ [' '] ++ showOperands [n, p, q] ++ ignoredComment r
  | .encms n p q r => msMnemonic ++ [' '] ++ showOperands [n, p, q, r]

end Sys2Proof.Machine
end

