-- ==== Sys2Proof/Machine/Caller.lean ====
section
/-! DEFINITION. The caller's data model (spec/50_caller_context.md), as the vocabulary of premises: what a well-formed host
presents to the block. Nothing here is executed by the block (spec/00_scope.md R5; log 7). -/

namespace Sys2Proof.Machine

/-- The source's DividerSetting {a,b,c,d,e,f,R} (R92). -/
structure DividerSetting where
  a : Nat
  b : Nat
  c : Nat
  d : Nat
  e : Nat
  f : Nat
  r : Nat
  deriving DecidableEq, Repr

/-- The source's error kinds other than EncodingOverflowError (R103). None is raised by the block (R116). -/
inductive CallerError where
  | domainError
  | outOfRangeError
  | pllDividerRangeError
  | pllNumeratorRangeError
  | multisynthDividerRangeError
  | multisynthNumeratorRangeError
  deriving DecidableEq, Repr

/-- The PLL half of the invariants of R92. -/
def DividerSetting.pllInvariant (x : DividerSetting) : Bool :=
  decide (15 ≤ x.a) && decide (x.a ≤ 90) && decide (1 ≤ x.c) && decide (x.c ≤ 1048575) && decide (x.b < x.c)

/-- The multisynth half of the invariants of R92, with d and R as resolved there and in R94 (C2, C4). -/
def DividerSetting.msInvariant (x : DividerSetting) : Bool :=
  (decide (x.d = 4) || decide (x.d = 6) || (decide (8 ≤ x.d) && decide (x.d ≤ 900))) &&
    decide (1 ≤ x.f) && decide (x.f ≤ 1048575) && decide (x.e < x.f) && decide (x.r ∈ encodableDividers)

/-- The invariants of a DividerSetting (R92, R94). -/
def DividerSetting.invariant (x : DividerSetting) : Bool := x.pllInvariant && x.msInvariant

/-- `encodePll(a,b,c)` as a command: the ignored field R is written as 0 (R41, R49). -/
def DividerSetting.pllCommand (x : DividerSetting) : Instr := .encpll x.a x.b x.c 0

/-- `encodeMultisynth(d,e,f,R)` as a command (R41). -/
def DividerSetting.msCommand (x : DividerSetting) : Instr := .encms x.d x.e x.f x.r

/-- The solver's validation (R100), its four checks in the order the rule lists them (log 7). -/
def DividerSetting.validate (x : DividerSetting) : Except CallerError Unit :=
  if ¬(15 ≤ x.a ∧ x.a ≤ 90) then .error .pllDividerRangeError
  else if ¬(x.b ≤ 1048575) then .error .pllNumeratorRangeError
  else if ¬(4 ≤ x.d ∧ x.d ≤ 900 ∧ x.d ≠ 5 ∧ x.d ≠ 7) then .error .multisynthDividerRangeError
  else if ¬(x.e ≤ 1048575) then .error .multisynthNumeratorRangeError
  else .ok ()

/-- The commands a host that obeys the source presents (R105). -/
def wellFormedHostCommand : Instr → Bool
  | .encpll a b c _ =>
    decide (15 ≤ a) && decide (a ≤ 90) &&
      ((decide (c = 1) && decide (b = 0)) || (decide (c = 1048575) && decide (b ≤ 1048575)))
  | .encms d e f r =>
    decide (e = 0) && decide (f = 1) &&
      ((decide (d = 4) && decide (r = 1)) ||
        ((decide (d = 6) || (decide (8 ≤ d) && decide (d ≤ 900))) && decide (r ∈ encodableDividers)))

end Sys2Proof.Machine
end

