-- ==== Sys2Proof/Machine/Instances.lean ====
section
/-! DEFINITION. Several instances of the block, each with its own RES and its own command stream, sharing nothing
(spec/70_reset_and_hazards.md R139, spec/60_exceptions.md R123). -/

namespace Sys2Proof.Machine

/-- One instance as its own steps have left it: running in a state, or stopped by a fault of its own host (log 10). -/
abbrev InstanceStatus := Host.Outcome State Fault Refusal

/-- One step of a running instance; a stopped one stays as it is. -/
def advance : InstanceStatus → InstanceStatus
  | .next s => step s
  | .fault f => .fault f
  | .refused r => .refused r

/-- One step of instance `k`; the others do not move (R139). -/
def stepInstance {m : Nat} (k : Fin m) (xs : Vector InstanceStatus m) : Vector InstanceStatus m := xs.set k (advance xs[k])

/-- The steps of a schedule, which says whose turn it is, first to last. What stops one instance stops no other (R139). -/
def runSchedule {m : Nat} : List (Fin m) → Vector InstanceStatus m → Vector InstanceStatus m
  | [], xs => xs
  | k :: rest, xs => runSchedule rest (stepInstance k xs)

end Sys2Proof.Machine
end

