-- ==== Sys2Proof/Machine/Unpack.lean ====
section
/-! DEFINITION. UNPACK, the inverse of the general formula that spec/40_general_formula.md R68 derives so that the source's
round-trip property can be stated. It is not an operation of the block (spec/00_scope.md R5). -/

namespace Sys2Proof.Machine

/-- s = P1 + 512 (R68). -/
def unpackSum (g : PackedFields) : Nat := g.p1.toNat + Config.bias

/-- n = floor(s / 128) (R68). -/
def unpackN (g : PackedFields) : Nat := unpackSum g / Config.scale

/-- k = s mod 128 (R68). -/
def unpackK (g : PackedFields) : Nat := unpackSum g % Config.scale

/-- p = (P2 + P3·k) / 128 (R68). -/
def unpackP (g : PackedFields) : Nat := (g.p2.toNat + g.p3.toNat * unpackK g) / Config.scale

/-- q = P3 (R68). -/
def unpackQ (g : PackedFields) : Nat := g.p3.toNat

/-- A valid triple: P3 ≥ 1, P2 < P3 and 128 divides P2 + P3·k (R68). -/
def PackedFields.validTriple (g : PackedFields) : Bool :=
  decide (1 ≤ g.p3.toNat) && decide (g.p2.toNat < g.p3.toNat) &&
    decide ((g.p2.toNat + g.p3.toNat * unpackK g) % Config.scale = 0)

end Sys2Proof.Machine
end

