-- ==== Sys2Proof/Safety.lean ====
section
/-! DEFINITION. The vocabulary of claims: what a legal state and a safe host are, and the words of the rules in terms of
plain arithmetic, without the model's own datapath. -/

namespace Sys2Proof.Machine

/-- `k` is floor(128·p / q): the largest integer k with k·q ≤ 128·p (R57). -/
def IsScaledFloor (k p q : Nat) : Prop := k * q ≤ 128 * p ∧ 128 * p < (k + 1) * q

/-- The P1 test passes: 0 ≤ 128·n + k − 512 ≤ 2^18 − 1 (R58, R60). -/
def P1Fits (n k : Nat) : Prop := 512 ≤ 128 * n + k ∧ 128 * n + k ≤ 262143 + 512

/-- The P2 test passes: 128·p − q·k ≤ 2^20 − 1 (R59, R60). -/
def P2Fits (k p q : Nat) : Prop := 128 * p ≤ 1048575 + q * k

/-- The P3 test passes: q ≤ 2^20 − 1 (R59, R60). -/
def P3Fits (q : Nat) : Prop := q ≤ 1048575

/-- The fields hold 128·n + k − 512, 128·p − q·k and q (R58, R59). -/
def PackedFields.Hold (g : PackedFields) (n k p q : Nat) : Prop :=
  g.p1.toNat + 512 = 128 * n + k ∧ g.p2.toNat + q * k = 128 * p ∧ g.p3.toNat = q

/-- `r` is one of 1, 2, 4, …, 128, with logarithm `j` (R66). -/
def IsDivider (r j : Nat) : Prop := j < 8 ∧ r = 2 ^ j

/-- The masks ENCPLL can end in (R115). -/
def pllMasks : List CauseMask := [0b00001#5, 0b00100#5, 0b00101#5, 0b00110#5, 0b00111#5, 0b01000#5]

/-- The masks ENCMS with N ≠ 4 can end in (R115). -/
def msMasks : List CauseMask :=
  pllMasks ++ [0b10000#5, 0b10001#5, 0b10100#5, 0b10101#5, 0b10110#5, 0b10111#5, 0b11000#5]

/-- The width of an output port (R14). -/
def Port.width : Port → Nat
  | .valid => 1
  | .err => 1
  | .ecause => 5
  | .p1 => 18
  | .p2 => 20
  | .p3 => 20
  | .div4 => 1
  | .int => 1
  | .rdiv => 3

/-- A good result the block can hold: a valid triple (R68); with DIV4 = 1 the sentinel and RDIV = 0 (R77); with INT = 1 a
numerator that left no fraction: P2 = 0 and P1 a multiple of 128 (R58, R79). -/
def Fields.legal (f : Fields) : Bool :=
  f.packed.validTriple && (!f.div4 || (f.packed == sentinel && f.rdiv == 0#3)) &&
    (!f.int || (f.packed.p2 == 0#20 && decide (f.packed.p1.toNat % 128 = 0)))

/-- A result the block can hold (R13, R115). -/
def Res.legal : Res → Bool
  | .empty => true
  | .ok f => f.legal
  | .err m => decide (m ∈ msMasks)

/-- What a read can have returned. -/
def Observation.legal : Observation → Bool
  | .whole r => r.legal
  | .port p v => decide (v < 2 ^ p.width)

/-- The invariant of the machine: RES is legal, and so is everything the host has read. -/
def State.inv (s : State) : Bool := s.res.legal && s.seen.all Observation.legal

/-- The result of a command, as the first command after reset gives it (R132). -/
def resultOf (i : Instr) : Res :=
  match exec i State.reset with
  | .next t => t.res
  | .fault _ => .empty
  | .refused _ => .empty

/-- The results of the commands in a list of actions, in order, as whole reads of RES would return them. -/
def presentedResults : List HostAction → List Observation
  | [] => []
  | .present w :: rest => .whole (resultOf (decode Config.opw w)) :: presentedResults rest
  | .read :: rest => presentedResults rest
  | .readPort _ :: rest => presentedResults rest
  | .reset :: rest => presentedResults rest

/-- With `unread`, the result of the last command has not been read yet: a lossless host reads RES after each command and
before the next command or reset (R131, R136). -/
def losslessFrom : Bool → List HostAction → Bool
  | unread, [] => !unread
  | unread, .present _ :: rest => !unread && losslessFrom true rest
  | _, .read :: rest => losslessFrom false rest
  | unread, .readPort _ :: rest => losslessFrom unread rest
  | unread, .reset :: rest => !unread && losslessFrom false rest

/-- A host that needs every result (R136). -/
def lossless (acts : List HostAction) : Bool := losslessFrom false acts

/-- A host that obeys the first duty of R137: from the given RES on, it reads a data field through its port only while
VALID = 1, which it can know from the results of its own commands. -/
def readsDataOnlyWhileValid : Res → List HostAction → Bool
  | _, [] => true
  | _, .present w :: rest => readsDataOnlyWhileValid (resultOf (decode Config.opw w)) rest
  | r, .read :: rest => readsDataOnlyWhileValid r rest
  | r, .readPort p :: rest => (!p.isData || r.valid) && readsDataOnlyWhileValid r rest
  | _, .reset :: rest => readsDataOnlyWhileValid .empty rest

end Sys2Proof.Machine
end

