-- ==== Sys2Proof/Certificates/Slice0/Obligations.lean ====
section
/-! DEFINITION. The statements for the provers. Each docstring names the rule of the spec it formalises.
The words IsScaledFloor, P1Fits, P2Fits, P3Fits, Hold and IsDivider are plain arithmetic (Safety.lean). -/

open Sys2Proof Sys2Proof.Machine

/-! ### Reset and RES -/

/-- R21: after reset RES is Empty, VALID, ERR and ECAUSE are 0, and no data field has a value. -/
def Obligations.ResetLeavesResEmpty : Prop :=
  State.reset.res = .empty ∧ State.reset.res.valid = false ∧ State.reset.res.isErr = false ∧
    State.reset.res.ecause = 0#5 ∧ ∀ p : Port, p.isData = true → portValue State.reset.res p = none

/-- R130: the host's reset sets RES to Empty and does nothing else. -/
def Obligations.AssertResetOnlyEmptiesRes : Prop :=
  ∀ s : State, perform .reset s = .next { s with res := .empty }

/-- R15: (VALID, ERR) encodes the alternative of RES, and (1, 1) never occurs. -/
def Obligations.StatusPairEncodesTheAlternative : Prop :=
  ∀ r : Res,
    ((r.valid = false ∧ r.isErr = false) ↔ r = .empty) ∧
      ((r.valid = true ∧ r.isErr = false) ↔ ∃ f, r = .ok f) ∧
      ((r.valid = false ∧ r.isErr = true) ↔ ∃ m, r = .err m) ∧ ¬(r.valid = true ∧ r.isErr = true)

/-- Derived from R14 and R16: with VALID = 0 no data field has a value, and a host that reads one through its port faults; every
other port read, of a status port in any state or of a data port while VALID = 1, goes on and notes the port's value. That the
read faults, and does not yield an absent option, is the model's choice among the two that R16 names (log 5); that ports are
read one at a time (log 5), that actions are held as a list (log 2) and that reads are noted (log 4) are its choices too. -/
def Obligations.DataPortsHaveNoValueWhileInvalid : Prop :=
  ∀ (s : State) (p : Port) (rest : List HostAction), s.pending = .readPort p :: rest →
    (p.isData = true → s.res.valid = false → portValue s.res p = none ∧ step s = .fault (.dataPortWithoutValue p)) ∧
      (p.isData = false ∨ s.res.valid = true → ∃ v, portValue s.res p = some v ∧
        step s = .next { s with pending := rest, seen := s.seen ++ [.port p v] })

/-- Derived from R14: the status ports always have a value, the nine ports show the fields of a good result, and no port shows more than
its width holds. -/
def Obligations.PortsShowTheFieldsOfRes : Prop :=
  (∀ r : Res, portValue r .valid = some r.valid.toNat ∧ portValue r .err = some r.isErr.toNat ∧
      portValue r .ecause = some r.ecause.toNat) ∧
    (∀ f : Fields, portValue (.ok f) .p1 = some f.packed.p1.toNat ∧ portValue (.ok f) .p2 = some f.packed.p2.toNat ∧
      portValue (.ok f) .p3 = some f.packed.p3.toNat ∧ portValue (.ok f) .div4 = some f.div4.toNat ∧
      portValue (.ok f) .int = some f.int.toNat ∧ portValue (.ok f) .rdiv = some f.rdiv.toNat ∧
      portValue (.ok f) .ecause = some 0) ∧
    ∀ (r : Res) (p : Port) (v : Nat), portValue r p = some v → v < 2 ^ p.width

/-! ### GENPACK and RDIVENC -/

/-- R55, R56, R58, R59, R60: the whole of GENPACK. A zero denominator gives the mask with only EC_DIV0; otherwise, with k the
floor of R57, GENPACK returns 128·n + k − 512, 128·p − q·k and q when every bound is kept, and when any is not, the mask in
which each failed test has its own bit and no other bit is set. -/
def Obligations.GenpackIsTheGeneralFormula : Prop :=
  ∀ n p q : Nat,
    (q = 0 → genpack n p q = .error 0b01000#5) ∧
      ∀ k : Nat, IsScaledFloor k p q →
        (P1Fits n k → P2Fits k p q → P3Fits q → ∃ g, genpack n p q = .ok g ∧ g.Hold n k p q) ∧
        (¬(P1Fits n k ∧ P2Fits k p q ∧ P3Fits q) →
          ∃ m, genpack n p q = .error m ∧ (m.getLsbD 0 = true ↔ ¬P1Fits n k) ∧ (m.getLsbD 1 = true ↔ ¬P2Fits k p q) ∧
            (m.getLsbD 2 = true ↔ ¬P3Fits q) ∧ m.getLsbD 3 = false ∧ m.getLsbD 4 = false)

/-- R57: the floor is unique, exists for every q ≠ 0, and the model's division computes it. -/
def Obligations.ScaledFractionIsTheFloor : Prop :=
  ∀ p q : Nat, q ≠ 0 → ∀ k : Nat, IsScaledFloor k p q ↔ scaledFraction p q = k

/-- Derived from R61: the widths that suffice, for any OPW the block may have (R6): t1 fits OPW + 9 bits in two's complement. -/
def Obligations.IntermediatesFitTheirWidths : Prop :=
  ∀ opw n p q : Nat, Config.minOpw ≤ opw → n < 2 ^ opw → p < 2 ^ opw → q < 2 ^ opw → q ≠ 0 →
    128 * p < 2 ^ (opw + 7) ∧ 128 * n < 2 ^ (opw + 7) ∧ scaledFraction p q < 2 ^ (opw + 7) ∧
      128 * n + scaledFraction p q < 2 ^ (opw + 8) ∧
      -(2 ^ (opw + 8) : Int) ≤ packT1 n p q ∧ packT1 n p q < (2 ^ (opw + 8) : Int) ∧
      q * scaledFraction p q < 2 ^ (opw + 7) ∧ packT2 p q < q

/-- R62: P2 is the remainder of 128·p by q, it is below P3, and EC_P2 never comes without EC_P3. -/
def Obligations.SecondFieldIsTheRemainder : Prop :=
  ∀ n p q : Nat, q ≠ 0 →
    packT2 p q = 128 * p % q ∧ packT2 p q ≤ q - 1 ∧
      (∀ g, genpack n p q = .ok g → g.p2.toNat = 128 * p % q) ∧
      ∀ m, genpack n p q = .error m → m.getLsbD 1 = true → m.getLsbD 2 = true ∧ 2 ^ 20 + 1 ≤ q

/-- R63: for a proper fraction k is at most 127, and the integer parts that pass the P1 test are 4 to 2051. -/
def Obligations.EncodableIntegerPartsOfProperFractions : Prop :=
  ∀ n p q : Nat, p < q →
    scaledFraction p q ≤ 127 ∧
      (n ≤ 3 → -512 ≤ packT1 n p q ∧ packT1 n p q ≤ -1) ∧
      (4 ≤ n → n ≤ 2051 → (128 * n : Int) - 512 ≤ packT1 n p q ∧ packT1 n p q ≤ (128 * n : Int) - 385) ∧
      (2052 ≤ n → 262144 ≤ packT1 n p q) ∧
      (q ≤ 1048575 → ((∃ g, genpack n p q = .ok g) ↔ 4 ≤ n ∧ n ≤ 2051)) ∧
      ∀ m, genpack n p q = .error m → (m.getLsbD 0 = true ↔ n ≤ 3 ∨ 2052 ≤ n)

/-- R64: the formula is applied to p ≥ q too, and the excess integer part moves into P1; p = q is the encoding of n + 1. -/
def Obligations.ImproperFractionCarriesIntoP1 : Prop :=
  (∀ n p q : Nat, genpack n (p + q) q = genpack (n + 1) p q) ∧
    ∀ n q : Nat, 1 ≤ q → q ≤ 1048575 → 3 ≤ n → n ≤ 2050 →
      ∃ g, genpack n q q = .ok g ∧ g.p1.toNat = 128 * (n + 1) - 512 ∧ g.p2.toNat = 0 ∧ g.p3.toNat = q

/-- R65: the fraction is never reduced: P3 is the denominator as given. -/
def Obligations.DenominatorIsNeverReduced : Prop :=
  (∀ (n p q : Nat) (g : PackedFields), genpack n p q = .ok g → g.p3.toNat = q) ∧
    genpack 8 1 2 = .ok ⟨576#18, 0#20, 2#20⟩ ∧ genpack 8 2 4 = .ok ⟨576#18, 0#20, 4#20⟩

/-- R66: RDIVENC gives the logarithm of 1, 2, 4, …, 128 and EC_RDIV for any other post-divider. -/
def Obligations.DividerFieldIsTheLogarithm : Prop :=
  ∀ r : Nat,
    (∀ j : Nat, IsDivider r j → ∃ d, rdivenc r = .ok d ∧ d.toNat = j) ∧
      ((∀ j : Nat, ¬IsDivider r j) → rdivenc r = .error 0b10000#5)

/-- R68: packing what UNPACK gives for a valid triple gives the triple back, and UNPACK gives a proper fraction. -/
def Obligations.RepackingAnUnpackedTriple : Prop :=
  ∀ g : PackedFields, g.validTriple = true →
    unpackP g < unpackQ g ∧ genpack (unpackN g) (unpackP g) (unpackQ g) = .ok g

/-- Derived from R68 and 95_test_vectors.md 2.5: unpacking what GENPACK gives for a proper fraction gives its operands back. -/
def Obligations.UnpackingAPackedRatio : Prop :=
  ∀ (n p q : Nat) (g : PackedFields), p < q → genpack n p q = .ok g →
    g.validTriple = true ∧ unpackN g = n ∧ unpackP g = p ∧ unpackQ g = q

/-- R69: 4 + 0/1 is packed as the sentinel, so that the three fields do not tell ENCPLL 4, 0, 1 from divide-by-4 mode and DIV4
does; for any other denominator GENPACK(4, 0, q) is not the sentinel, and the fields it gives have P3 = q. -/
def Obligations.FourOverOneIsTheSentinel : Prop :=
  genpack 4 0 1 = .ok ⟨0#18, 0#20, 1#20⟩ ∧
    (∀ (p q r r' : Nat) (s : State), ∃ f f' : Fields, exec (.encpll 4 0 1 r) s = .next { s with res := .ok f } ∧
      exec (.encms 4 p q r') s = .next { s with res := .ok f' } ∧ f.packed = f'.packed ∧ f.div4 = false ∧
      f'.div4 = true) ∧
    (∀ q : Nat, 2 ≤ q → q ≤ 1048575 → ∃ g, genpack 4 0 q = .ok g ∧ g.p3.toNat = q ∧ g ≠ ⟨0#18, 0#20, 1#20⟩) ∧
    ∀ q : Nat, q ≠ 1 → genpack 4 0 q ≠ .ok ⟨0#18, 0#20, 1#20⟩

/-! ### ENCPLL -/

/-- R70: ENCPLL completes for every operand and every state, with the formula's fields and DIV4 = INT = RDIV = 0, or with
the error and its mask; R and the old state do not matter. -/
def Obligations.EncpllPacksTheRatio : Prop :=
  ∀ (n p q r : Nat) (s : State),
    (q = 0 → exec (.encpll n p q r) s = .next { s with res := .err 0b01000#5 }) ∧
      ∀ k : Nat, IsScaledFloor k p q →
        (P1Fits n k → P2Fits k p q → P3Fits q →
          ∃ g : PackedFields, g.Hold n k p q ∧
            exec (.encpll n p q r) s =
              .next { s with res := .ok { packed := g, div4 := false, int := false, rdiv := 0#3 } }) ∧
        (¬(P1Fits n k ∧ P2Fits k p q ∧ P3Fits q) →
          ∃ m, exec (.encpll n p q r) s = .next { s with res := .err m } ∧ (m.getLsbD 0 = true ↔ ¬P1Fits n k) ∧
            (m.getLsbD 1 = true ↔ ¬P2Fits k p q) ∧ (m.getLsbD 2 = true ↔ ¬P3Fits q) ∧ m.getLsbD 3 = false ∧
            m.getLsbD 4 = false)

/-- R72: ENCPLL has no divide-by-4 mode: with N = 4 its fields are the general formula's, and DIV4 is 0. -/
def Obligations.EncpllHasNoDivideByFour : Prop :=
  ∀ (r : Nat) (s : State),
    (∀ (p q : Nat) (g : PackedFields), genpack 4 p q = .ok g →
      exec (.encpll 4 p q r) s = .next { s with res := .ok ⟨g, false, false, 0#3⟩ }) ∧
      (∀ (p q : Nat) (m : CauseMask), genpack 4 p q = .error m →
        exec (.encpll 4 p q r) s = .next { s with res := .err m }) ∧
      exec (.encpll 4 0 1 r) s = .next { s with res := .ok ⟨⟨0#18, 0#20, 1#20⟩, false, false, 0#3⟩ } ∧
      exec (.encpll 4 1 2 r) s = .next { s with res := .ok ⟨⟨64#18, 0#20, 2#20⟩, false, false, 0#3⟩ } ∧
      exec (.encms 4 1 2 1) s = .next { s with res := .ok ⟨⟨0#18, 0#20, 1#20⟩, true, false, 0#3⟩ }

/-! ### ENCMS -/

/-- R77, R80: with N = 4 ENCMS completes for every P, Q, R and every state, with the sentinel, DIV4 = 1, RDIV = 0 and
INT = (P = 0). -/
def Obligations.EncmsSentinelPath : Prop :=
  ∀ (p q r : Nat) (s : State),
    exec (.encms 4 p q r) s =
      .next { s with res := .ok ⟨⟨0#18, 0#20, 1#20⟩, true, decide (p = 0), 0#3⟩ }

/-- R78, R83: the general path of ENCMS, N ≠ 4. With every check passed it completes with the formula's fields, DIV4 = 0,
INT = (P = 0) and RDIV = log2(R). With any check failed it ends in the error, whose mask has a bit for each failed check and
for no other; with Q = 0 the bounds are not evaluated (R56). -/
def Obligations.EncmsGeneralPath : Prop :=
  ∀ (n p q r : Nat) (s : State), n ≠ 4 →
    (q = 0 →
      ∃ m, exec (.encms n p q r) s = .next { s with res := .err m } ∧
        (m = 0b01000#5 ∧ (∃ j, IsDivider r j) ∨ m = 0b11000#5 ∧ ¬∃ j, IsDivider r j)) ∧
      ∀ k : Nat, IsScaledFloor k p q →
        (∀ j : Nat, P1Fits n k → P2Fits k p q → P3Fits q → IsDivider r j →
          ∃ f : Fields, exec (.encms n p q r) s = .next { s with res := .ok f } ∧ f.packed.Hold n k p q ∧
            f.div4 = false ∧ f.int = decide (p = 0) ∧ f.rdiv.toNat = j) ∧
        (¬(P1Fits n k ∧ P2Fits k p q ∧ P3Fits q ∧ ∃ j, IsDivider r j) →
          ∃ m, exec (.encms n p q r) s = .next { s with res := .err m } ∧ (m.getLsbD 0 = true ↔ ¬P1Fits n k) ∧
            (m.getLsbD 1 = true ↔ ¬P2Fits k p q) ∧ (m.getLsbD 2 = true ↔ ¬P3Fits q) ∧ m.getLsbD 3 = false ∧
            (m.getLsbD 4 = true ↔ ¬∃ j, IsDivider r j))

/-- Derived from R75 and R110: ENCMS has no other outcome: on every path it completes, with no error when N = 4 and, when N ≠ 4, with the error
exactly when a check fails. -/
def Obligations.EncmsFailsExactlyWhenACheckFails : Prop :=
  ∀ (n p q r : Nat) (s : State),
    ∃ res, exec (.encms n p q r) s = .next { s with res := res } ∧
      (res.isErr = true ↔
        n ≠ 4 ∧ (q = 0 ∨ (∀ j, ¬IsDivider r j) ∨ ∃ k, IsScaledFloor k p q ∧ ¬(P1Fits n k ∧ P2Fits k p q ∧ P3Fits q))) ∧
      (res.valid = true ↔ ¬res.isErr = true)

/-! ### Both commands -/

/-- R18, R79: in a good result DIV4 is the detector (N = 4 of ENCMS) and INT is the numerator test of ENCMS. -/
def Obligations.FlagsFollowTheOperands : Prop :=
  ∀ (i : Instr) (s t : State) (f : Fields), exec i s = .next t → t.res = .ok f →
    (f.div4 = true ↔ opOf i = true ∧ nOf i = 4) ∧ (f.int = true ↔ opOf i = true ∧ pOf i = 0)

/-- R19: RDIV is log2(R) in the general path of ENCMS, and 0 in divide-by-4 mode and for ENCPLL. -/
def Obligations.DividerFieldOfEveryGoodResult : Prop :=
  ∀ (i : Instr) (s t : State) (f : Fields), exec i s = .next t → t.res = .ok f →
    (opOf i = true → nOf i ≠ 4 → rOf i = 2 ^ f.rdiv.toNat) ∧ (opOf i = false ∨ nOf i = 4 → f.rdiv = 0#3)

/-- R20, R112, R118: every command completes with RES = Ok or RES = Err, writes the whole of RES and nothing else, and what it
writes does not depend on the state it finds. -/
def Obligations.CommandWritesResAndNothingElse : Prop :=
  ∀ i : Instr, ∃ r : Res, (r.valid = true ∨ r.isErr = true) ∧ ∀ s : State, exec i s = .next { s with res := r }

/-- Derived from R118: every presented command completes, in one step, with RES = Ok or RES = Err. That the host's actions are
a list from which the step takes one is the model's choice (log 2). -/
def Obligations.EveryPresentedCommandCompletes : Prop :=
  ∀ (s : State) (w : CommandWord Config.opw) (rest : List HostAction), s.pending = .present w :: rest →
    ∃ r : Res, step s = .next { s with res := r, pending := rest } ∧ (r.valid = true ∨ r.isErr = true)

/-- R115: the masks that can occur. No command ends in another mask, and each of them is the result of a command whose
operands fit OPW, for every OPW from 21 up (R6). -/
def Obligations.MasksThatCanOccur : Prop :=
  (∀ (i : Instr) (s t : State) (m : CauseMask), exec i s = .next t → t.res = .err m →
    (opOf i = false → m ∈ pllMasks) ∧ (opOf i = true → nOf i ≠ 4 ∧ m ∈ msMasks)) ∧
    ∀ (opw : Nat) (s : State), Config.minOpw ≤ opw →
      (∀ m ∈ pllMasks, ∃ n p q r, (Instr.encpll n p q r).wellFormed opw = true ∧
        exec (.encpll n p q r) s = .next { s with res := .err m }) ∧
        ∀ m ∈ msMasks, ∃ n p q r, (Instr.encms n p q r).wellFormed opw = true ∧ n ≠ 4 ∧
          exec (.encms n p q r) s = .next { s with res := .err m }

/-- R48: every word decodes to a command that is executed; the ignored operand fields have no effect; and in the general path
of ENCMS none is ignored. -/
def Obligations.IgnoredOperandsHaveNoEffect : Prop :=
  (∀ (opw : Nat) (w : CommandWord opw) (s : State), ∃ r, exec (decode opw w) s = .next { s with res := r }) ∧
    (∀ (n p q r r' : Nat) (s : State), exec (.encpll n p q r) s = exec (.encpll n p q r') s) ∧
    (∀ (p q q' r r' : Nat) (s : State), exec (.encms 4 p q r) s = exec (.encms 4 p q' r') s) ∧
    (∀ (i : Instr) (s : State), exec (withoutIgnored i) s = exec i s) ∧
    ∀ s : State, exec (.encms 8 0 1 1) s ≠ exec (.encms 8 0 2 1) s ∧ exec (.encms 8 0 1 1) s ≠ exec (.encms 8 0 1 2) s ∧
      exec (.encms 8 0 1 1) s ≠ exec (.encms 8 1 1 1) s ∧ exec (.encms 8 0 1 1) s ≠ exec (.encms 9 0 1 1) s

/-- R114: the error is not sticky. The next command writes RES as it does from Empty; a success clears ERR and ECAUSE, and a
failure replaces ECAUSE by its own mask. -/
def Obligations.ErrorIsNotSticky : Prop :=
  ∀ (i : Instr) (s : State) (m : CauseMask),
    ∃ r, exec i { s with res := .err m } = .next { s with res := r } ∧
      exec i { s with res := .empty } = .next { s with res := r } ∧
      (r.valid = true ∧ r.isErr = false ∧ r.ecause = 0#5 ∨ r.valid = false ∧ r = .err r.ecause ∧ r.ecause ≠ 0#5)

/-- Derived from R71, R81 and R100: the block repeats none of the solver's checks: settings that validation rejects are encoded.
That a setting with a = 14 or a = 91 is rejected with PllDividerRangeError also where it breaks further checks is the model's
choice of their order, not R100's (log 7). -/
def Obligations.SolverChecksAreNotRepeated : Prop :=
  ∀ s : State,
    (∀ r, exec (.encpll 14 0 1 r) s = .next { s with res := .ok ⟨⟨1280#18, 0#20, 1#20⟩, false, false, 0#3⟩ }) ∧
      (∀ r, exec (.encpll 91 0 1 r) s = .next { s with res := .ok ⟨⟨11136#18, 0#20, 1#20⟩, false, false, 0#3⟩ }) ∧
      exec (.encms 5 0 1 1) s = .next { s with res := .ok ⟨⟨128#18, 0#20, 1#20⟩, false, true, 0#3⟩ } ∧
      exec (.encms 7 1 2 2) s = .next { s with res := .ok ⟨⟨448#18, 0#20, 2#20⟩, false, false, 1#3⟩ } ∧
      exec (.encms 2048 0 1 1) s = .next { s with res := .ok ⟨⟨261632#18, 0#20, 1#20⟩, false, true, 0#3⟩ } ∧
      (∀ b c d e f r, DividerSetting.validate ⟨14, b, c, d, e, f, r⟩ = .error .pllDividerRangeError) ∧
      (∀ b c d e f r, DividerSetting.validate ⟨91, b, c, d, e, f, r⟩ = .error .pllDividerRangeError) ∧
      DividerSetting.validate ⟨15, 0, 1, 5, 0, 1, 1⟩ = .error .multisynthDividerRangeError ∧
      DividerSetting.validate ⟨15, 0, 1, 7, 1, 2, 2⟩ = .error .multisynthDividerRangeError ∧
      DividerSetting.validate ⟨15, 0, 1, 2048, 0, 1, 1⟩ = .error .multisynthDividerRangeError

/-- R67: under the caller's invariants neither command can fail, and the fields are in the ranges of the table. With d = 4,
which those invariants allow, ENCMS ends in the sentinel (R77). -/
def Obligations.WellFormedSettingNeverFails : Prop :=
  (∀ (x : DividerSetting) (s : State), x.invariant = true →
    (∃ f : Fields, exec x.pllCommand s = .next { s with res := .ok f } ∧ 1408 ≤ f.packed.p1.toNat ∧
      f.packed.p1.toNat ≤ 11135 ∧ f.packed.p2.toNat < x.c ∧ f.packed.p3.toNat = x.c) ∧
      (x.d ≠ 4 → ∃ f : Fields, exec x.msCommand s = .next { s with res := .ok f } ∧ 256 ≤ f.packed.p1.toNat ∧
        f.packed.p1.toNat ≤ 114815 ∧ f.packed.p2.toNat < x.f ∧ f.packed.p3.toNat = x.f) ∧
      (x.d = 4 →
        exec x.msCommand s = .next { s with res := .ok ⟨⟨0#18, 0#20, 1#20⟩, true, decide (x.e = 0), 0#3⟩ })) ∧
    genpack 2048 0 1 = .ok ⟨261632#18, 0#20, 1#20⟩

/-- Derived from R105: every command a well-formed host presents ends in a good result, and its ENCMS commands have INT = 1. -/
def Obligations.WellFormedHostGetsGoodResults : Prop :=
  ∀ (i : Instr) (s : State), wellFormedHostCommand i = true →
    ∃ f : Fields, exec i s = .next { s with res := .ok f } ∧ (opOf i = true → f.int = true)

/-! ### Encoding -/

/-- R46: decoding reads OP and the four operand fields at their places, decoding an encoded command gives it back, and
encoding a decoded word gives the word back, for every OPW. -/
def Obligations.DecodeAndEncodeAgree : Prop :=
  ∀ opw : Nat,
    (∀ i : Instr, i.wellFormed opw = true → decode opw (encode opw i) = i) ∧
      ∀ w : CommandWord opw, encode opw (decode opw w) = w ∧ opOf (decode opw w) = w.getLsbD (4 * opw) ∧
        nOf (decode opw w) = w.toNat % 2 ^ opw ∧ pOf (decode opw w) = w.toNat / 2 ^ opw % 2 ^ opw ∧
        qOf (decode opw w) = w.toNat / 2 ^ (2 * opw) % 2 ^ opw ∧ rOf (decode opw w) = w.toNat / 2 ^ (3 * opw) % 2 ^ opw

/-- R42: the word {OP, R, Q, P, N} read as a number, N lowest, decodes to its fields. -/
def Obligations.FieldsOfFormatC : Prop :=
  ∀ opw n p q r : Nat, n < 2 ^ opw → p < 2 ^ opw → q < 2 ^ opw → r < 2 ^ opw →
    decode opw (BitVec.ofNat (commandBits opw)
        (r * 2 ^ (3 * opw) + q * 2 ^ (2 * opw) + p * 2 ^ opw + n)) = .encpll n p q r ∧
      decode opw (BitVec.ofNat (commandBits opw)
        (2 ^ (4 * opw) + r * 2 ^ (3 * opw) + q * 2 ^ (2 * opw) + p * 2 ^ opw + n)) = .encms n p q r

/-- Derived from R44: every decoded operand is an unsigned number of OPW bits. -/
def Obligations.DecodedOperandsFitOpw : Prop :=
  ∀ (opw : Nat) (w : CommandWord opw), (decode opw w).wellFormed opw = true

/-- R45: the two rows of the opcode map select by OP alone, cover every word and do not overlap. -/
def Obligations.OpcodeRowsPartitionTheWords : Prop :=
  (∀ (opw : Nat) (w : CommandWord opw),
    (rowSelects (rowMask opw) (encpllMatch opw) w = true ↔ opOf (decode opw w) = false) ∧
      (rowSelects (rowMask opw) (encmsMatch opw) w = true ↔ opOf (decode opw w) = true) ∧
      (rowSelects (rowMask opw) (encpllMatch opw) w = true ↔ ¬rowSelects (rowMask opw) (encmsMatch opw) w = true)) ∧
    rowMask 32 = 0x100000000000000000000000000000000#129 ∧ encpllMatch 32 = 0#129 ∧
    encmsMatch 32 = 0x100000000000000000000000000000000#129

/-- Derived from 95_test_vectors.md 2.6: words written out decode to the commands they stand for. -/
def Obligations.WrittenOutWordsDecode : Prop :=
  decode 32 0x000000000000000010000000000000018#129 = .encpll 24 0 1 0 ∧
    decode 32 0x0DEADBEEF000000010000000000000018#129 = .encpll 24 0 1 0xDEADBEEF ∧
    decode 32 0x100000004000000030000000100000008#129 = .encms 8 1 3 4 ∧
    decode 32 0x100000001000000010000000000000004#129 = .encms 4 0 1 1

/-- Derived from R49: a line the disassembler prints assembles to the command, with 0 in ENCPLL's ignored field R. The lexical form is the
model's where R49 is silent (log 11). -/
def Obligations.AssemblingADisassembledCommand : Prop :=
  ∀ (opw n p q r : Nat),
    ((Instr.encpll n p q r).wellFormed opw = true →
      assembleLine opw (disassemble (.encpll n p q r)) = .ok (some (.encpll n p q 0))) ∧
      ((Instr.encms n p q r).wellFormed opw = true →
        assembleLine opw (disassemble (.encms n p q r)) = .ok (some (.encms n p q r)))

/-- Derived from R49: "printing loses no bit". -/
def Obligations.DisassemblyLosesNoBit : Prop :=
  ∀ i j : Instr, disassemble i = disassemble j → i = j

/-! ### Steps and the host -/

/-- Derived from R35 and R138. A step runs the decoded command: with a presented word first among the host's actions, a step is `exec` of its command,
in the state from which that action has been taken. Holding the host's actions as a list is the model's choice (log 2). -/
def Obligations.StepRunsThePresentedCommand : Prop :=
  ∀ (s : State) (w : CommandWord Config.opw) (rest : List HostAction), s.pending = .present w :: rest →
    step s = exec (decode Config.opw w) { s with pending := rest }

/-- Derived from R46 and R132: the word of any well-formed command, placed where the next step takes its command, is run by
that step, and in particular right after reset. How a command is placed is the model's choice (log 2, log 8). -/
def Obligations.FetchWordRunsNext : Prop :=
  ∀ (i : Instr) (s : State) (nbits : Nat), i.wellFormed Config.opw = true → 129 ≤ nbits →
    decodeTableWord nbits (encode Config.opw i).toNat = some i ∧
      step (s.withFetchWord nbits (encode Config.opw i).toNat) = exec i s

/-- Derived from R34: a read returns all of RES, changes nothing of the block, and may be repeated with the same value. That
actions and reads are held as lists is the model's choice (log 2, log 4). -/
def Obligations.ReadsAreRepeatable : Prop :=
  ∀ (k : Nat) (s : State) (rest : List HostAction), s.pending = List.replicate k .read ++ rest →
    Host.Core.run Sys2Proof.core k s =
      .next { s with pending := rest, seen := s.seen ++ List.replicate k (.whole s.res) }

/-- Derived from R35: a read between two commands returns the result of the first. That actions and reads are held as lists is
the model's choice (log 2, log 4). -/
def Obligations.ReadReturnsThePrecedingResult : Prop :=
  ∀ (s : State) (w w' : CommandWord Config.opw) (rest : List HostAction),
    s.pending = .present w :: .read :: .present w' :: rest →
    Host.Core.run Sys2Proof.core 3 s =
      .next { res := resultOf (decode Config.opw w'), pending := rest,
              seen := s.seen ++ [.whole (resultOf (decode Config.opw w))] }

/-- Derived from R136 and R131: the next command replaces the result whether or not it was read, with no trace of it; a reset
loses it. That actions are held as a list is the model's choice (log 2). -/
def Obligations.UnreadResultIsLost : Prop :=
  (∀ (s : State) (w w' : CommandWord Config.opw) (rest : List HostAction), s.pending = .present w :: .present w' :: rest →
    Host.Core.run Sys2Proof.core 2 s = .next { s with res := resultOf (decode Config.opw w'), pending := rest }) ∧
    ∀ (s : State) (w : CommandWord Config.opw) (rest : List HostAction), s.pending = .present w :: .reset :: rest →
      Host.Core.run Sys2Proof.core 2 s = .next { s with res := .empty, pending := rest }

/-- Derived from R35, R136 and R137: a host that reads RES after each command and before the next command or reset, and reads a
data field through a port only while VALID = 1, gets every result, in order. Holding actions and reads as lists is the
model's choice (log 2, log 4), and so are reads of single ports (log 5). -/
def Obligations.LosslessHostGetsEveryResult : Prop :=
  ∀ s : State, lossless s.pending = true → readsDataOnlyWhileValid s.res s.pending = true →
    ∃ t new, Host.Core.run Sys2Proof.core s.pending.length s = .next t ∧ t.pending = [] ∧ t.seen = s.seen ++ new ∧
      List.Sublist (presentedResults s.pending) new

/-- Derived from R12 and R138: a step changes RES only when the host presents a command or asserts reset, takes one action
from the host's list and never unsays a read. That actions and reads are held as lists, and with them the last two clauses, is
the model's choice (log 2, log 4). -/
def Obligations.OnlyCommandsAndResetWriteRes : Prop :=
  ∀ s t : State, step s = .next t →
    (t.res = s.res ∨ (∃ w rest, s.pending = .present w :: rest) ∨ ∃ rest, s.pending = .reset :: rest) ∧
      t.pending = s.pending.tail ∧ List.IsPrefix s.seen t.seen ∧ t.seen.length ≤ s.seen.length + 1

/-- Derived from R118 and R120: no step is refused, and the only fault is a read of a data port while VALID = 0. R118 speaks of
commands only. That the list of actions is in the state (log 2), that a step with no action completes (log 3) and that such a
port read faults (log 5) are the model's choices. -/
def Obligations.OnlyInvalidDataReadsStopTheMachine : Prop :=
  ∀ s : State,
    (∃ t, step s = .next t) ∨
      ∃ p rest, s.pending = .readPort p :: rest ∧ p.isData = true ∧ s.res.valid = false ∧
        step s = .fault (.dataPortWithoutValue p)

/-- Derived from R118 and R137: the host's actions are all performed, one a step, exactly when the host reads data ports only
while VALID = 1. Holding the actions as a list is the model's choice (log 2), and so is the fault of another port read (log 5). -/
def Obligations.EveryActionIsPerformed : Prop :=
  ∀ s : State, readsDataOnlyWhileValid s.res s.pending = true ↔
    ∃ t, Host.Core.run Sys2Proof.core s.pending.length s = .next t ∧ t.pending = []

/-- Derived from R34: without an action of the host, RES stays. That the step then goes on is the model's choice (log 3). -/
def Obligations.IdleKeepsRes : Prop :=
  ∀ s : State, s.pending = [] → step s = .next s

/-- Derived from R139: under any interleaving of the instances' steps each instance has the outcome it has alone, whatever
becomes of the others; and a step of one leaves every other as it is. That instances are a vector of outcomes and an
interleaving a list of turns is the model's choice (log 10), and so is that a host's fault stops its own instance (log 5). -/
def Obligations.InstancesDoNotInterfere : Prop :=
  ∀ (m : Nat) (schedule : List (Fin m)),
    (∀ (xs : Vector State m) (k : Fin m),
      (runSchedule schedule (xs.map .next))[k] = Host.Core.run Sys2Proof.core (schedule.count k) xs[k]) ∧
      ∀ (ys : Vector InstanceStatus m) (j k : Fin m), j ≠ k → (stepInstance j ys)[k] = ys[k]

/-! ### Invariants -/

/-- Derived from R13, R68, R77 and R115: every step from a state that meets the invariant gives one that meets it. Its clause on
what the host has read rests on the model's list of reads (log 4) and on its reads of single ports (log 5). -/
def Obligations.StepKeepsTheInvariant : Prop :=
  ∀ s t : State, s.inv = true → step s = .next t → t.inv = true

/-- Derived from R21 and R130: the invariant holds after reset. For what the host has read it holds because the model's list of
reads is empty after reset (log 4). -/
def Obligations.ResetMeetsTheInvariant : Prop := State.reset.inv = true

/-- Derived from R133: whatever RES held before, a command leaves a legal result. That this covers a block that was never reset is
the model's reading of R133: there RES may be any value of its type, and VALID = ERR = 1 is none (log 9). -/
def Obligations.CommandLeavesALegalResult : Prop :=
  ∀ (i : Instr) (s t : State), exec i s = .next t → t.res.legal = true ∧ t.res ≠ .empty
end

