-- ==== Sys2Proof/Laws/Decode.lean ====
section
/-! SUPPORT. The fields of a packed word (R42), and the operands a decoder yields (R44). -/

namespace Sys2Proof

/-- An operand field is a slice of the word's number (R42). -/
theorem operandField_eq (opw k : Nat) (w : CommandWord opw) : operandField opw k w = w.toNat / 2 ^ (k * opw) % 2 ^ opw := by
  unfold operandField
  rw [BitVec.extractLsb'_toNat, Nat.shiftRight_eq_div_pow]

/-- An operand fits its field (R44). -/
theorem operandField_fits (opw k : Nat) (w : CommandWord opw) : fitsOperand opw (operandField opw k w) = true := by
  unfold fitsOperand operandField
  exact decide_eq_true (BitVec.isLt _)

/-- The number of a packed word: each field at its place (R42). -/
theorem packWord_toNat (opw : Nat) (op : Bool) {n p q r : Nat} (hn : n < 2 ^ opw) (hp : p < 2 ^ opw) (hq : q < 2 ^ opw)
    (hr : r < 2 ^ opw) :
    (packWord opw op n p q r).toNat =
      (((op.toNat * 2 ^ opw + r) * 2 ^ opw + q) * 2 ^ opw + p) * 2 ^ opw + n := by
  have join (a b : Nat) (hb : b < 2 ^ opw) : a <<< opw ||| b = a * 2 ^ opw + b := by
    rw [← Nat.shiftLeft_add_eq_or_of_lt hb, Nat.shiftLeft_eq]
  simp only [packWord, BitVec.toNat_cast, BitVec.toNat_append, BitVec.toNat_ofNat, BitVec.toNat_ofBool,
    Nat.mod_eq_of_lt hn, Nat.mod_eq_of_lt hp, Nat.mod_eq_of_lt hq, Nat.mod_eq_of_lt hr, join _ _ hn, join _ _ hp,
    join _ _ hq, join _ _ hr]

/-- Bit 4·OPW of a packed word is OP (R42). -/
theorem fieldOp_packWord (opw : Nat) (op : Bool) (n p q r : Nat) : fieldOp opw (packWord opw op n p q r) = op := by
  unfold fieldOp packWord
  simp only [BitVec.getLsbD_cast, BitVec.getLsbD_append]
  rcases Nat.eq_zero_or_pos opw with rfl | h
  · simp
  · have h1 : ¬4 * opw < opw := by omega
    have h2 : ¬4 * opw - opw < opw := by omega
    have h3 : ¬4 * opw - opw - opw < opw := by omega
    have h4 : ¬4 * opw - opw - opw - opw < opw := by omega
    have h5 : 4 * opw - opw - opw - opw - opw = 0 := by omega
    simp [h1, h2, h3, h4, h5]

end Sys2Proof
end

