-- ==== Sys2Proof/Laws/State.lean ====
section
/-! SUPPORT. One lemma per field per update of State, so that no later proof unfolds a record update. -/

namespace Sys2Proof.Machine

section updates
variable (r r' : Res) (o : Observation) (a : HostAction) (s : State)

@[simp] theorem writeRes_res : (writeRes r s).res = r := rfl
@[simp] theorem writeRes_pending : (writeRes r s).pending = s.pending := rfl
@[simp] theorem writeRes_seen : (writeRes r s).seen = s.seen := rfl
@[simp] theorem writeRes_writeRes : writeRes r (writeRes r' s) = writeRes r s := rfl

@[simp] theorem observe_res : (observe o s).res = s.res := rfl
@[simp] theorem observe_pending : (observe o s).pending = s.pending := rfl
@[simp] theorem observe_seen : (observe o s).seen = s.seen ++ [o] := rfl

@[simp] theorem presentNext_res : (presentNext a s).res = s.res := rfl
@[simp] theorem presentNext_pending : (presentNext a s).pending = a :: s.pending := rfl
@[simp] theorem presentNext_seen : (presentNext a s).seen = s.seen := rfl

end updates

@[simp] theorem reset_res : State.reset.res = .empty := rfl
@[simp] theorem reset_pending : State.reset.pending = [] := rfl
@[simp] theorem reset_seen : State.reset.seen = [] := rfl

/-- A state is its three fields. -/
theorem State.ext_fields {s t : State} (hr : s.res = t.res) (hp : s.pending = t.pending) (hs : s.seen = t.seen) :
    s = t := by
  cases s; cases t; simp_all

end Sys2Proof.Machine
end

