-- ==== Sys2Proof/Laws/Ops.lean ====
section
/-! SUPPORT. What each named operation on RES can do. -/

namespace Sys2Proof.Machine

@[simp] theorem writeOk_eq (f : Fields) (s : State) : writeOk f s = .next (writeRes (.ok f) s) := rfl

@[simp] theorem raiseEncodingOverflow_eq (m : CauseMask) (s : State) :
    raiseEncodingOverflow m s = .next (writeRes (.err m) s) := rfl

@[simp] theorem readRes_eq (s : State) : readRes s = .next (observe (.whole s.res) s) := rfl

@[simp] theorem assertReset_eq (s : State) : assertReset s = .next (writeRes .empty s) := rfl

@[simp] theorem valid_empty : Res.empty.valid = false := rfl
@[simp] theorem valid_ok (f : Fields) : (Res.ok f).valid = true := rfl
@[simp] theorem valid_err (m : CauseMask) : (Res.err m).valid = false := rfl
@[simp] theorem isErr_empty : Res.empty.isErr = false := rfl
@[simp] theorem isErr_ok (f : Fields) : (Res.ok f).isErr = false := rfl
@[simp] theorem isErr_err (m : CauseMask) : (Res.err m).isErr = true := rfl
@[simp] theorem fields_empty : Res.empty.fields = none := rfl
@[simp] theorem fields_ok (f : Fields) : (Res.ok f).fields = some f := rfl
@[simp] theorem fields_err (m : CauseMask) : (Res.err m).fields = none := rfl

/-- A port has no value exactly when it carries a data field and RES is not Ok (R16). -/
theorem portValue_eq_none (r : Res) (p : Port) : portValue r p = none ↔ p.isData = true ∧ r.valid = false := by
  cases r <;> cases p <;> simp [portValue, Port.isData]

/-- The value on a port fits the port (R14). -/
theorem portValue_lt {r : Res} {p : Port} {v : Nat} (h : portValue r p = some v) : v < 2 ^ p.width := by
  have bit (b : Bool) : b.toNat < 2 := Bool.toNat_lt b
  cases p <;> simp only [portValue, Option.map_eq_some_iff, Option.some.injEq] at h
  case valid | err => exact h ▸ bit _
  case ecause => exact h ▸ BitVec.isLt _
  all_goals obtain ⟨f, -, rfl⟩ := h
  case div4 | int => exact bit _
  all_goals exact BitVec.isLt _

/-- What reading a port can do: note its value, or fault on a data port while VALID = 0. -/
theorem readPort_cases (p : Port) (s : State) :
    (∃ v, portValue s.res p = some v ∧ readPort p s = .next (observe (.port p v) s)) ∨
      (p.isData = true ∧ s.res.valid = false ∧ readPort p s = .fault (.dataPortWithoutValue p)) := by
  unfold readPort
  cases h : portValue s.res p with
  | some v => exact .inl ⟨v, rfl, rfl⟩
  | none => exact .inr ⟨((portValue_eq_none _ _).1 h).1, ((portValue_eq_none _ _).1 h).2, rfl⟩

end Sys2Proof.Machine
end

