-- ==== Sys2Proof/Laws/Formula.lean ====
section
/-! SUPPORT. The datapath: GENPACK in the words of the rules (R57 to R62), and RDIVENC (R66). -/

namespace Sys2Proof.Machine

/-- `scaledFraction` is the floor of R57. -/
theorem scaledFraction_floor (p : Nat) {q : Nat} (hq : q ≠ 0) : IsScaledFloor (scaledFraction p q) p q := by
  have hq : 0 < q := Nat.pos_of_ne_zero hq
  exact ⟨Nat.div_mul_le_self _ _, Nat.lt_mul_of_div_lt (Nat.lt_succ_self _) hq⟩

/-- The floor is unique (R57). -/
theorem IsScaledFloor.eq {k p q : Nat} (h : IsScaledFloor k p q) : scaledFraction p q = k :=
  Nat.div_eq_of_lt_le h.1 h.2

/-- A floor exists only for a denominator that is not 0. -/
theorem IsScaledFloor.q_ne_zero {k p q : Nat} (h : IsScaledFloor k p q) : q ≠ 0 := by
  rintro rfl
  simpa using h.2

/-- The lower half of the floor, with the factors in R59's order. -/
theorem IsScaledFloor.le {k p q : Nat} (h : IsScaledFloor k p q) : q * k ≤ 128 * p := by
  rw [Nat.mul_comm q k]
  exact h.1

/-- The upper half of the floor: the remainder is below q (R62). -/
theorem IsScaledFloor.lt {k p q : Nat} (h : IsScaledFloor k p q) : 128 * p < q * k + q := by
  have h2 := h.2
  rw [Nat.add_mul, Nat.mul_comm k q] at h2
  omega

/-- The subtraction of R59 never truncates. -/
theorem packT2_add (p : Nat) {q : Nat} (hq : q ≠ 0) : packT2 p q + q * scaledFraction p q = 128 * p :=
  Nat.sub_add_cancel (scaledFraction_floor p hq).le

/-- t2 is the remainder of 128·p by q (R62). -/
theorem packT2_eq_mod (p q : Nat) : packT2 p q = 128 * p % q := by
  unfold packT2 scaledFraction
  exact (Nat.mod_eq_sub_mul_div ..).symm

/-- The mask is 0 exactly when all three tests pass (R60). -/
theorem boundsMask_eq_zero (t1 : Int) (t2 t3 : Nat) :
    boundsMask t1 t2 t3 = 0#5 ↔ p1Exceeds t1 = false ∧ p2Exceeds t2 = false ∧ p3Exceeds t3 = false := by
  unfold boundsMask causeBit
  cases p1Exceeds t1 <;> cases p2Exceeds t2 <;> cases p3Exceeds t3 <;> decide

/-- The bits of the mask: each of the three tests has its own, and the other two are 0 (R17, R60). -/
theorem boundsMask_bits (t1 : Int) (t2 t3 : Nat) :
    (boundsMask t1 t2 t3).getLsbD 0 = p1Exceeds t1 ∧ (boundsMask t1 t2 t3).getLsbD 1 = p2Exceeds t2 ∧
      (boundsMask t1 t2 t3).getLsbD 2 = p3Exceeds t3 ∧ (boundsMask t1 t2 t3).getLsbD 3 = false ∧
      (boundsMask t1 t2 t3).getLsbD 4 = false := by
  unfold boundsMask causeBit
  cases p1Exceeds t1 <;> cases p2Exceeds t2 <;> cases p3Exceeds t3 <;> decide

theorem p1Exceeds_packT1 {n p q k : Nat} (h : IsScaledFloor k p q) : p1Exceeds (packT1 n p q) = false ↔ P1Fits n k := by
  unfold p1Exceeds packT1 P1Fits
  rw [h.eq]
  simp only [Bool.or_eq_false_iff, decide_eq_false_iff_not, Config.scale, Config.bias, Config.p1Max]
  omega

theorem p2Exceeds_packT2 {p q k : Nat} (h : IsScaledFloor k p q) : p2Exceeds (packT2 p q) = false ↔ P2Fits k p q := by
  have := packT2_add p h.q_ne_zero
  rw [h.eq] at this
  unfold p2Exceeds P2Fits
  simp only [decide_eq_false_iff_not, Config.p2Max]
  omega

theorem p3Exceeds_packT3 (q : Nat) : p3Exceeds (packT3 q) = false ↔ P3Fits q := by
  unfold p3Exceeds packT3 P3Fits
  simp only [decide_eq_false_iff_not, Nat.not_lt]

@[simp] theorem genpack_zero (n p : Nat) : genpack n p 0 = .error ecDiv0 := rfl

/-- GENPACK with every test passed (R58, R59, R60). -/
theorem genpack_ok {n k p q : Nat} (h : IsScaledFloor k p q) (h1 : P1Fits n k) (h2 : P2Fits k p q) (h3 : P3Fits q) :
    ∃ g, genpack n p q = .ok g ∧ g.Hold n k p q := by
  have hm := (boundsMask_eq_zero (packT1 n p q) (packT2 p q) (packT3 q)).2
    ⟨(p1Exceeds_packT1 h).2 h1, (p2Exceeds_packT2 h).2 h2, (p3Exceeds_packT3 q).2 h3⟩
  refine ⟨narrow (packT1 n p q) (packT2 p q) (packT3 q), ?_, ?_⟩
  · simp [genpack, boundedFields, hm, h.q_ne_zero]
  · have ht := packT2_add p h.q_ne_zero
    rw [h.eq] at ht
    have hT1 : packT1 n p q = ((128 * n + k : Nat) : Int) - 512 := by unfold packT1; rw [h.eq]; rfl
    unfold P1Fits at h1
    unfold P2Fits at h2
    unfold P3Fits at h3
    refine ⟨?_, ?_, ?_⟩
    · simp only [narrow, BitVec.toNat_ofNat, hT1]
      omega
    · simp only [narrow, BitVec.toNat_ofNat]
      omega
    · simp only [narrow, BitVec.toNat_ofNat, packT3]
      omega

/-- GENPACK with a test failed: the mask names each of them (R60). -/
theorem genpack_error {n k p q : Nat} (h : IsScaledFloor k p q) (hf : ¬(P1Fits n k ∧ P2Fits k p q ∧ P3Fits q)) :
    genpack n p q = .error (boundsMask (packT1 n p q) (packT2 p q) (packT3 q)) := by
  have hm : ¬boundsMask (packT1 n p q) (packT2 p q) (packT3 q) = 0#5 := by
    rw [boundsMask_eq_zero, p1Exceeds_packT1 h, p2Exceeds_packT2 h, p3Exceeds_packT3]
    exact hf
  simp [genpack, boundedFields, hm, h.q_ne_zero]

/-- Everything GENPACK can do (R55, R56, R60). -/
theorem genpack_cases (n p q : Nat) :
    (q = 0 ∧ genpack n p q = .error ecDiv0) ∨
      (∃ k g, IsScaledFloor k p q ∧ P1Fits n k ∧ P2Fits k p q ∧ P3Fits q ∧ genpack n p q = .ok g ∧ g.Hold n k p q) ∨
      (∃ k, IsScaledFloor k p q ∧ ¬(P1Fits n k ∧ P2Fits k p q ∧ P3Fits q) ∧
        genpack n p q = .error (boundsMask (packT1 n p q) (packT2 p q) (packT3 q))) := by
  by_cases hq : q = 0
  · subst hq
    exact .inl ⟨rfl, rfl⟩
  · have h := scaledFraction_floor p hq
    by_cases hf : P1Fits n (scaledFraction p q) ∧ P2Fits (scaledFraction p q) p q ∧ P3Fits q
    · obtain ⟨g, hg, hold⟩ := genpack_ok h hf.1 hf.2.1 hf.2.2
      exact .inr (.inl ⟨_, g, h, hf.1, hf.2.1, hf.2.2, hg, hold⟩)
    · exact .inr (.inr ⟨_, h, hf, genpack_error h hf⟩)

/-- Everything RDIVENC can do (R66). -/
theorem rdivenc_cases (r : Nat) :
    (∃ j, IsDivider r j ∧ rdivenc r = .ok (BitVec.ofNat 3 j)) ∨ ((∀ j, ¬IsDivider r j) ∧ rdivenc r = .error ecRdiv) := by
  by_cases h : r ∈ encodableDividers
  · left
    have hr : r = 2 ^ 0 ∨ r = 2 ^ 1 ∨ r = 2 ^ 2 ∨ r = 2 ^ 3 ∨ r = 2 ^ 4 ∨ r = 2 ^ 5 ∨ r = 2 ^ 6 ∨ r = 2 ^ 7 := by
      simpa [encodableDividers] using h
    rcases hr with h | h | h | h | h | h | h | h
    all_goals exact ⟨_, ⟨by decide, h⟩, by subst h; rfl⟩
  · right
    refine ⟨fun j hj => h ?_, by simp [rdivenc, h]⟩
    obtain ⟨hj, rfl⟩ := hj
    have : ∀ j < 8, 2 ^ j ∈ encodableDividers := by decide
    exact this j hj

/-- RDIVENC of an encodable post-divider (R66). -/
theorem rdivenc_of_divider {r j : Nat} (h : IsDivider r j) : rdivenc r = .ok (BitVec.ofNat 3 j) := by
  obtain ⟨hj, rfl⟩ := h
  have : ∀ j < 8, rdivenc (2 ^ j) = .ok (BitVec.ofNat 3 j) := by decide
  exact this j hj

end Sys2Proof.Machine
end

