-- ==== Sys2Proof/Laws/Exec.lean ====
section
/-! SUPPORT. What a command, an action of the host and a step can do, said once. -/

namespace Sys2Proof.Machine

/-- ENCPLL of a ratio GENPACK encodes (R70). -/
theorem execEncpll_ok {n p q : Nat} {g : PackedFields} (r : Nat) (s : State) (h : genpack n p q = .ok g) :
    exec (.encpll n p q r) s = .next (writeRes (.ok (pllFields g)) s) := by
  simp [exec, execEncpll, h]

/-- ENCPLL of a ratio GENPACK does not encode (R70). -/
theorem execEncpll_error {n p q : Nat} {m : CauseMask} (r : Nat) (s : State) (h : genpack n p q = .error m) :
    exec (.encpll n p q r) s = .next (writeRes (.err m) s) := by
  simp [exec, execEncpll, h]

/-- ENCMS in divide-by-4 mode (R77). -/
theorem execEncms_sentinel (p q r : Nat) (s : State) :
    exec (.encms 4 p q r) s = .next (writeRes (.ok (sentinelFields p)) s) := rfl

/-- ENCMS in the general path (R78). -/
theorem execEncms_general {n : Nat} (hn : n ≠ 4) (p q r : Nat) (s : State) :
    exec (.encms n p q r) s = execGeneral p (genpack n p q) (rdivenc r) s := by
  simp [exec, execEncms, msVariant, hn]

/-- Both parts of the general path succeed (R78). -/
theorem execGeneral_ok (p : Nat) (g : PackedFields) (rd : RdivField) (s : State) :
    execGeneral p (.ok g) (.ok rd) s = .next (writeRes (.ok (generalFields p g rd)) s) := rfl

/-- GENPACK fails in the general path, whatever RDIVENC does (R83). -/
theorem execGeneral_error_left (p : Nat) (m : CauseMask) (d : Except CauseMask RdivField) (s : State) :
    execGeneral p (.error m) d s = .next (writeRes (.err (m ||| maskOf d)) s) := by
  cases d <;> rfl

/-- RDIVENC fails in the general path, whatever GENPACK does (R83). -/
theorem execGeneral_error_right (p : Nat) (g : Except CauseMask PackedFields) (m : CauseMask) (s : State) :
    execGeneral p g (.error m) s = .next (writeRes (.err (maskOf g ||| m)) s) := by
  cases g <;> rfl

/-- A command writes RES and nothing else, and what it writes does not depend on the state (R12, R20). -/
theorem exec_writes (i : Instr) : ∃ r, ∀ s, exec i s = .next (writeRes r s) := by
  cases i with
  | encpll n p q r =>
    cases h : genpack n p q with
    | ok g => exact ⟨_, fun s => execEncpll_ok r s h⟩
    | error m => exact ⟨_, fun s => execEncpll_error r s h⟩
  | encms n p q r =>
    by_cases hn : n = 4
    · subst hn
      exact ⟨_, fun s => execEncms_sentinel p q r s⟩
    · simp only [execEncms_general hn]
      cases genpack n p q with
      | error m => exact ⟨_, execGeneral_error_left p m _⟩
      | ok g =>
        cases rdivenc r with
        | error m => exact ⟨_, execGeneral_error_right p _ m⟩
        | ok rd => exact ⟨_, execGeneral_ok p g rd⟩

/-- A command writes its result (R12, R132). -/
theorem exec_eq (i : Instr) (s : State) : exec i s = .next (writeRes (resultOf i) s) := by
  obtain ⟨r, h⟩ := exec_writes i
  have : resultOf i = r := by simp [resultOf, h]
  rw [this]
  exact h s

/-- Where a good result comes from: ENCPLL, or the sentinel path or the general path of ENCMS (R70, R77, R78). -/
theorem exec_ok_cases {i : Instr} {s t : State} {f : Fields} (h : exec i s = .next t) (hr : t.res = .ok f) :
    (∃ n p q r g, i = .encpll n p q r ∧ genpack n p q = .ok g ∧ f = pllFields g) ∨
      (∃ p q r, i = .encms 4 p q r ∧ f = sentinelFields p) ∨
      (∃ n p q r g j, n ≠ 4 ∧ i = .encms n p q r ∧ genpack n p q = .ok g ∧ IsDivider r j ∧
        f = generalFields p g (BitVec.ofNat 3 j)) := by
  cases i with
  | encpll n p q r =>
    left
    cases hg : genpack n p q with
    | ok g =>
      rw [execEncpll_ok _ _ hg] at h
      cases h
      cases hr
      exact ⟨_, _, _, _, _, rfl, hg, rfl⟩
    | error m =>
      rw [execEncpll_error _ _ hg] at h
      cases h
      cases hr
  | encms n p q r =>
    right
    by_cases hn : n = 4
    · subst hn
      cases h
      cases hr
      exact .inl ⟨_, _, _, rfl, rfl⟩
    · right
      rw [execEncms_general hn] at h
      cases hg : genpack n p q with
      | error m =>
        rw [hg, execGeneral_error_left] at h
        cases h
        cases hr
      | ok g =>
        obtain ⟨j, hj, hd⟩ | ⟨-, hd⟩ := rdivenc_cases r <;> rw [hg, hd] at h <;> cases h <;> cases hr
        exact ⟨_, _, _, _, _, _, hn, rfl, hg, hj, rfl⟩

/-- Where an error comes from, and with which mask (R70, R83). -/
theorem exec_err_cases {i : Instr} {s t : State} {m : CauseMask} (h : exec i s = .next t) (hr : t.res = .err m) :
    (∃ n p q r, i = .encpll n p q r ∧ genpack n p q = .error m) ∨
      (∃ n p q r, n ≠ 4 ∧ i = .encms n p q r ∧ m = maskOf (genpack n p q) ||| maskOf (rdivenc r) ∧
        ((∃ m', genpack n p q = .error m') ∨ rdivenc r = .error ecRdiv)) := by
  cases i with
  | encpll n p q r =>
    left
    cases hg : genpack n p q with
    | ok g =>
      rw [execEncpll_ok _ _ hg] at h
      cases h
      cases hr
    | error m =>
      rw [execEncpll_error _ _ hg] at h
      cases h
      cases hr
      exact ⟨_, _, _, _, rfl, hg⟩
  | encms n p q r =>
    right
    by_cases hn : n = 4
    · subst hn
      cases h
      cases hr
    · rw [execEncms_general hn] at h
      refine ⟨n, p, q, r, hn, rfl, ?_⟩
      cases hg : genpack n p q with
      | error m' =>
        rw [hg, execGeneral_error_left] at h
        cases h
        cases hr
        exact ⟨rfl, .inl ⟨_, rfl⟩⟩
      | ok g =>
        obtain ⟨j, -, hd⟩ | ⟨-, hd⟩ := rdivenc_cases r <;> rw [hg, hd] at h <;> cases h <;> cases hr
        exact ⟨by rw [hd], .inr hd⟩

/-- A step with the host's next action at hand performs it. -/
theorem step_cons {s : State} {a : HostAction} {rest : List HostAction} (h : s.pending = a :: rest) :
    step s = perform a { s with pending := rest } := by
  simp [step, fetch, h]

/-- A step with a presented command at hand writes its result. -/
theorem step_present {s : State} {w : CommandWord Config.opw} {rest : List HostAction} (h : s.pending = .present w :: rest) :
    step s = .next { s with res := resultOf (decode Config.opw w), pending := rest } := by
  rw [step_cons h]
  exact exec_eq _ _

/-- A step with a read at hand notes RES. -/
theorem step_read {s : State} {rest : List HostAction} (h : s.pending = .read :: rest) :
    step s = .next { s with pending := rest, seen := s.seen ++ [.whole s.res] } :=
  step_cons h

/-- Everything a step can do. -/
theorem step_cases (s : State) :
    (s.pending = [] ∧ step s = .next s) ∨
      (∃ w rest, s.pending = .present w :: rest ∧
        step s = .next { s with res := resultOf (decode Config.opw w), pending := rest }) ∨
      (∃ rest, s.pending = .read :: rest ∧
        step s = .next { s with pending := rest, seen := s.seen ++ [.whole s.res] }) ∨
      (∃ p v rest, s.pending = .readPort p :: rest ∧ portValue s.res p = some v ∧
        step s = .next { s with pending := rest, seen := s.seen ++ [.port p v] }) ∨
      (∃ p rest, s.pending = .readPort p :: rest ∧ p.isData = true ∧ s.res.valid = false ∧
        step s = .fault (.dataPortWithoutValue p)) ∨
      (∃ rest, s.pending = .reset :: rest ∧ step s = .next { s with res := .empty, pending := rest }) := by
  match h : s.pending with
  | [] => exact .inl ⟨rfl, by simp [step, fetch, h, idle]⟩
  | .present w :: rest =>
    exact .inr (.inl ⟨w, rest, rfl, step_present h⟩)
  | .read :: rest => exact .inr (.inr (.inl ⟨rest, rfl, step_cons h⟩))
  | .readPort p :: rest =>
    obtain ⟨v, hv, he⟩ | ⟨hd, hv, he⟩ := readPort_cases p { s with pending := rest }
    · exact .inr (.inr (.inr (.inl ⟨p, v, rest, rfl, hv, by rw [step_cons h]; exact he⟩)))
    · exact .inr (.inr (.inr (.inr (.inl ⟨p, rest, rfl, hd, hv, by rw [step_cons h]; exact he⟩))))
  | .reset :: rest => exact .inr (.inr (.inr (.inr (.inr ⟨rest, rfl, step_cons h⟩))))

/-- A run of no steps. -/
@[simp] theorem run_zero (s : State) : Host.Core.run Sys2Proof.core 0 s = .next s := rfl

/-- A run whose first step goes on. -/
theorem run_succ {k : Nat} {s t : State} (h : step s = .next t) :
    Host.Core.run Sys2Proof.core (k + 1) s = Host.Core.run Sys2Proof.core k t := by
  have h' : Sys2Proof.core.step s = .next t := h
  simp [Host.Core.run, h']

/-- A run of one step. -/
theorem run_one {s t : State} (h : step s = .next t) : Host.Core.run Sys2Proof.core 1 s = .next t := by
  rw [run_succ h, run_zero]

/-- A run whose first step faults stops there. -/
theorem run_fault {k : Nat} {s : State} {f : Fault} (h : step s = .fault f) :
    Host.Core.run Sys2Proof.core (k + 1) s = .fault f := by
  have h' : Sys2Proof.core.step s = .fault f := h
  simp [Host.Core.run, h']

end Sys2Proof.Machine
end

