-- ==== Sys2Proof/Laws/Instances.lean ====
section
/-! SUPPORT. What a step of one instance and a schedule do to each instance (R139). -/

namespace Sys2Proof.Machine

@[simp] theorem advance_next (s : State) : advance (.next s) = step s := rfl
@[simp] theorem advance_fault (f : Fault) : advance (.fault f) = .fault f := rfl
@[simp] theorem advance_refused (r : Refusal) : advance (.refused r) = .refused r := rfl

@[simp] theorem runSchedule_nil {m : Nat} (xs : Vector InstanceStatus m) : runSchedule [] xs = xs := rfl

@[simp] theorem runSchedule_cons {m : Nat} (j : Fin m) (rest : List (Fin m)) (xs : Vector InstanceStatus m) :
    runSchedule (j :: rest) xs = runSchedule rest (stepInstance j xs) := rfl

/-- Everything a step of one instance does. -/
theorem getElem_stepInstance {m : Nat} (j k : Fin m) (xs : Vector InstanceStatus m) :
    (stepInstance j xs)[k] = if j = k then advance xs[k] else xs[k] := by
  unfold stepInstance
  by_cases h : j = k
  · subst h
    simp
  · have : (j : Nat) ≠ k := fun h' => h (Fin.ext h')
    simp [h, this]

/-- A run from a state is a run from where its first step leads; a stopped machine stays stopped. -/
theorem run_succ_eq (k : Nat) (s : State) :
    Host.Core.run Sys2Proof.core (k + 1) s =
      match step s with
      | .next t => Host.Core.run Sys2Proof.core k t
      | .fault f => .fault f
      | .refused r => .refused r := by
  have h : Sys2Proof.core.step s = step s := rfl
  cases hs : step s <;> simp [Host.Core.run, h, hs]

end Sys2Proof.Machine
end

