-- ==== Sys2Proof/Laws/PerInstr.lean ====
section
/-! SUPPORT. Statements for all commands, one lemma per constructor. -/

namespace Sys2Proof.Laws.OpBit

/-- The bit OP of a command's word says which command it is (R40, R45). -/
def Statement (i : Instr) : Prop :=
  ∀ opw : Nat, fieldOp opw (encode opw i) = match i with
    | .encpll _ _ _ _ => false
    | .encms _ _ _ _ => true

theorem encpll (n p q r : Nat) : Statement (.encpll n p q r) := by
  exact fun opw => fieldOp_packWord opw false n p q r

theorem encms (n p q r : Nat) : Statement (.encms n p q r) := by
  exact fun opw => fieldOp_packWord opw true n p q r

end Sys2Proof.Laws.OpBit
end

