-- ==== Sys2Proof/Tests/Slice0.lean ====
section
/-! SUPPORT. The model's own tests. Expected values are the spec's: 95_test_vectors.md by section, or the rule named.
Then, for each statement with hypotheses, a witness that meets them, at the ends of the ranges. -/

namespace Sys2Proof.Tests

open Sys2Proof Sys2Proof.Machine

/-- A state with RES and the host's actions given. -/
def stateOf (r : Res) (acts : List HostAction) : State := { res := r, pending := acts, seen := [] }

/-- RES after one step. -/
def resAfter (s : State) : Option Res :=
  match step s with
  | .next t => some t.res
  | .fault _ => none
  | .refused _ => none

/-- RES after the command of a table word, placed after reset. -/
def resOfWord (w : Nat) : Option Res := resAfter (State.reset.withFetchWord 136 w)

/-! ### Well-formedness: an ill-formed term for each check (R40, R44) -/

theorem test_wf_encpll_n : (Instr.encpll 4294967296 0 1 0).wellFormed 32 = false := by decide
theorem test_wf_encpll_p : (Instr.encpll 24 4294967296 1 0).wellFormed 32 = false := by decide
theorem test_wf_encpll_q : (Instr.encpll 24 0 4294967296 0).wellFormed 32 = false := by decide
theorem test_wf_encpll_r : (Instr.encpll 24 0 1 4294967296).wellFormed 32 = false := by decide
theorem test_wf_encms_n : (Instr.encms 4294967296 0 1 1).wellFormed 32 = false := by decide
theorem test_wf_encms_p : (Instr.encms 8 4294967296 1 1).wellFormed 32 = false := by decide
theorem test_wf_encms_q : (Instr.encms 8 0 4294967296 1).wellFormed 32 = false := by decide
theorem test_wf_encms_r : (Instr.encms 8 0 1 4294967296).wellFormed 32 = false := by decide
theorem test_wf_largest : (Instr.encms 4294967295 4294967295 4294967295 4294967295).wellFormed 32 = true := by decide

/-! ### Decoding, from words written out field by field, OP R Q P N (R42; section 2.6) -/

theorem test_decode_encpll :
    decode 32 (0#1 ++ 0xDEADBEEF#32 ++ 1#32 ++ 0#32 ++ 24#32) = .encpll 24 0 1 3735928559 := by decide

theorem test_decode_encms : decode 32 (1#1 ++ 4#32 ++ 3#32 ++ 1#32 ++ 8#32) = .encms 8 1 3 4 := by decide

/-- Section 2.6, fifth row. -/
theorem test_decode_all_ones :
    decodeTableWord 129 0x1FFFFFFFFFFFFFFFFFFFFFFFFFFFFFFFF =
      some (.encms 4294967295 4294967295 4294967295 4294967295) := by decide

/-- Section 2.1: the word of ENCPLL 25, 629145, 1048575. -/
theorem test_encode_encpll :
    encode 32 (.encpll 25 629145 1048575 0) = 0x000000000000FFFFF0009999900000019#129 := by decide

/-- Section 2.2: the word of ENCMS 1172, 7, 8, 128. -/
theorem test_encode_encms : encode 32 (.encms 1172 7 8 128) = 0x100000080000000080000000700000494#129 := by decide

/-- R43: there is one command length; a longer bit string is refused by name. -/
theorem test_decode_too_long :
    (decodeBits 32 (2 ^ 129)).toBool = false ∧ decodeTableWord 136 (2 ^ 129) = none := by decide

/-- R42 for another OPW: ENCMS 2051, 127, 128, 4 at OPW = 21, a word of 85 bits. -/
theorem test_decode_opw21 : decode 21 (1#1 ++ 4#21 ++ 128#21 ++ 127#21 ++ 2051#21) = .encms 2051 127 128 4 := by decide

/-! ### The two commands, as the first step after reset -/

/-- Section 2.1: ENCPLL 2051, 1048574, 1048575, the largest P1. -/
theorem test_encpll_largest :
    resOfWord 0x000000000000FFFFF000FFFFE00000803 = some (.ok ⟨⟨262143#18, 1048447#20, 1048575#20⟩, false, false, 0#3⟩) := by
  decide

/-- Section 2.4: ENCPLL 3000, 12288, 2097152, all three bounds fail. -/
theorem test_encpll_three_bounds : resOfWord 0x000000000002000000000300000000BB8 = some (.err 0b00111#5) := by decide

/-- Section 2.2: ENCMS 8, 1, 3, 4. -/
theorem test_encms_general :
    resOfWord 0x100000004000000030000000100000008 = some (.ok ⟨⟨554#18, 2#20, 3#20⟩, false, false, 2#3⟩) := by decide

/-- Section 2.3: ENCMS 4, 5, 0, 3, divide-by-4 with a numerator, a zero denominator and a bad post-divider. -/
theorem test_encms_sentinel :
    resOfWord 0x100000003000000000000000500000004 = some (.ok ⟨⟨0#18, 0#20, 1#20⟩, true, false, 0#3⟩) := by decide

/-! ### The datapath and the host interface -/

/-- Section 2.4: ENCPLL 4294967295, 4294967295, 1 must not wrap. -/
theorem test_genpack_no_wrap : genpack 4294967295 4294967295 1 = .error 0b00001#5 := by decide

/-- Section 2.4: ENCMS 10, 12288, 2097152, 6, causes of both parts together (R83). -/
theorem test_union_of_masks : resultOf (.encms 10 12288 2097152 6) = .err 0b10110#5 := by decide

/-- Section 2.5: UNPACK of (3174, 400000, 1000000), and two triples that are not valid. -/
theorem test_unpack :
    (unpackN ⟨3174#18, 400000#20, 1000000#20⟩ = 28 ∧ unpackP ⟨3174#18, 400000#20, 1000000#20⟩ = 800000) ∧
      (PackedFields.mk 554#18 1#20 3#20).validTriple = false ∧ (PackedFields.mk 554#18 3#20 3#20).validTriple = false := by
  decide

/-- R16, section 2.8: after reset P3 does not read 0. -/
theorem test_read_p3_after_reset :
    resAfter (stateOf State.reset.res [.readPort .p3]) = none ∧ portValue State.reset.res .ecause = some 0 := by decide

/-- R130: reset after an error empties RES. -/
theorem test_reset_after_error : resAfter (stateOf (.err 0b00001#5) [.reset]) = some .empty := by decide

/-- R49, section 2.6: the disassembly of a word whose ignored field R is not 0. -/
theorem test_disassemble :
    disassemble (.encpll 24 0 1 3735928559) = "ENCPLL 24, 0, 1 ; R=3735928559 ignored".toList := by decide

/-- R49: decimal and hexadecimal operands, a comment, blanks. -/
theorem test_assemble_line :
    (assembleLine 32 "ENCMS  8, 0x1, 3, 4 ; 8 + 1/3".toList).toOption = some (some (.encms 8 1 3 4)) := by decide

/-- R49: ENCPLL has three operands; R44: an operand fits OPW bits; R50: no other mnemonic. -/
theorem test_assemble_errors :
    (assembleLine 32 "ENCPLL 24, 0".toList).toOption = none ∧
      (assembleLine 32 "ENCPLL 0x100000000, 0, 1".toList).toOption = none ∧
      (assembleLine 32 "DIV4 0, 1, 1".toList).toOption = none := by decide

/-- R100: a setting the solver's validation accepts although it breaks b < c (C3). -/
theorem test_validate_b_equals_c :
    (DividerSetting.mk 25 1048575 1048575 6 0 1 1).validate.toBool = true ∧
      (DividerSetting.mk 25 1048575 1048575 6 0 1 1).invariant = false := by decide

/-! ### Witnesses: for each statement with hypotheses, values that meet them -/

theorem witness_DataPortsHaveNoValueWhileInvalid :
    ((stateOf .empty [.readPort .p1]).pending = .readPort .p1 :: [] ∧ Port.p1.isData = true ∧
        (stateOf .empty [.readPort .p1]).res.valid = false) ∧
      (stateOf (.ok (pllFields sentinel)) [.readPort .rdiv]).pending = .readPort .rdiv :: [] ∧ Port.rdiv.isData = true ∧
        (stateOf (.ok (pllFields sentinel)) [.readPort .rdiv]).res.valid = true ∧
      (stateOf .empty [.readPort .ecause]).pending = .readPort .ecause :: [] ∧ Port.ecause.isData = false := by decide

theorem witness_PortsShowTheFieldsOfRes : portValue (.ok (pllFields ⟨262143#18, 0#20, 128#20⟩)) .p1 = some 262143 := by decide

/-- Both ends of the P1 range, the largest P2 and P3, and each bound just exceeded. -/
theorem witness_GenpackIsTheGeneralFormula :
    (IsScaledFloor 0 0 1 ∧ P1Fits 4 0 ∧ P2Fits 0 0 1 ∧ P3Fits 1) ∧
      (IsScaledFloor 127 1048574 1048575 ∧ P1Fits 2051 127 ∧ P2Fits 127 1048574 1048575 ∧ P3Fits 1048575) ∧
      (IsScaledFloor 127 127 128 ∧ ¬P1Fits 3 127) ∧ (IsScaledFloor 0 0 1 ∧ ¬P1Fits 2052 0) ∧
      (IsScaledFloor 0 8192 1048577 ∧ ¬P2Fits 0 8192 1048577) ∧ (IsScaledFloor 0 0 1048576 ∧ ¬P3Fits 1048576) := by
  unfold IsScaledFloor P1Fits P2Fits P3Fits
  decide

theorem witness_ScaledFractionIsTheFloor : (1 : Nat) ≠ 0 ∧ IsScaledFloor 128 1 1 := by
  unfold IsScaledFloor
  decide

theorem witness_IntermediatesFitTheirWidths :
    Config.minOpw ≤ 21 ∧ 2097151 < 2 ^ 21 ∧ (2097151 : Nat) ≠ 0 := by decide

theorem witness_SecondFieldIsTheRemainder :
    (3 ≠ 0 ∧ genpack 8 1 3 = .ok ⟨554#18, 2#20, 3#20⟩) ∧
      genpack 10 8192 1048577 = .error 0b00110#5 ∧ (0b00110#5 : CauseMask).getLsbD 1 = true := by decide

theorem witness_EncodableIntegerPartsOfProperFractions :
    (127 < 128 ∧ 128 ≤ 1048575 ∧ genpack 3 127 128 = .error 0b00001#5) ∧
      (1048574 < 1048575 ∧ 1048575 ≤ 1048575 ∧ 4 ≤ 2051 ∧ 2051 ≤ 2051) ∧
      0 < 1 ∧ 2052 ≤ 2052 ∧ genpack 2052 0 1 = .error 0b00001#5 := by decide

theorem witness_ImproperFractionCarriesIntoP1 :
    (1 ≤ 1 ∧ 1 ≤ 1048575 ∧ 3 ≤ 3 ∧ 3 ≤ 2050) ∧ 1 ≤ 1048575 ∧ 1048575 ≤ 1048575 ∧ 3 ≤ 2050 ∧ 2050 ≤ 2050 := by decide

theorem witness_DenominatorIsNeverReduced : genpack 8 2 4 = .ok ⟨576#18, 0#20, 4#20⟩ := by decide

theorem witness_DividerFieldIsTheLogarithm : IsDivider 1 0 ∧ IsDivider 128 7 ∧ ∀ j, ¬IsDivider 256 j := by
  refine ⟨⟨by decide, by decide⟩, ⟨by decide, by decide⟩, ?_⟩
  rintro j ⟨hj, h⟩
  have : ∀ j < 8, 256 ≠ 2 ^ j := by decide
  exact this j hj h

theorem witness_RepackingAnUnpackedTriple :
    (PackedFields.mk 262143#18 0#20 128#20).validTriple = true ∧ (PackedFields.mk 0#18 0#20 1#20).validTriple = true := by
  decide

theorem witness_UnpackingAPackedRatio : 127 < 128 ∧ genpack 2051 127 128 = .ok ⟨262143#18, 0#20, 128#20⟩ := by decide

theorem witness_FourOverOneIsTheSentinel :
    (2 ≤ 2 ∧ 2 ≤ 1048575) ∧ (2 ≤ 1048575 ∧ 1048575 ≤ 1048575) ∧ 0 ≠ 1 ∧ 1048576 ≠ 1 := by decide

/-- The operands of the statement about GENPACK serve ENCPLL, whose other hypothesis is Q = 0. -/
theorem witness_EncpllPacksTheRatio :
    (IsScaledFloor 127 1048574 1048575 ∧ P1Fits 2051 127 ∧ P2Fits 127 1048574 1048575 ∧ P3Fits 1048575) ∧
      (IsScaledFloor 127 127 128 ∧ ¬(P1Fits 3 127 ∧ P2Fits 127 127 128 ∧ P3Fits 128)) := by
  unfold IsScaledFloor P1Fits P2Fits P3Fits
  decide

theorem witness_EncpllHasNoDivideByFour :
    genpack 4 1 2 = .ok ⟨64#18, 0#20, 2#20⟩ ∧ genpack 4 0 0 = .error 0b01000#5 := by decide

/-- N on both sides of 4, both ends of the divider table, a bad divider alone, and a bound alone. -/
theorem witness_EncmsGeneralPath :
    (5 ≠ 4 ∧ IsScaledFloor 0 0 1 ∧ P1Fits 5 0 ∧ P2Fits 0 0 1 ∧ P3Fits 1 ∧ IsDivider 1 0) ∧
      (2051 ≠ 4 ∧ IsScaledFloor 127 127 128 ∧ P1Fits 2051 127 ∧ P2Fits 127 127 128 ∧ P3Fits 128 ∧ IsDivider 128 7) ∧
      (3 ≠ 4 ∧ IsScaledFloor 127 127 128 ∧ ¬(P1Fits 3 127 ∧ P2Fits 127 127 128 ∧ P3Fits 128 ∧ ∃ j, IsDivider 1 j)) ∧
      (8 ≠ 4 ∧ IsScaledFloor 0 0 1 ∧ ¬(P1Fits 8 0 ∧ P2Fits 0 0 1 ∧ P3Fits 1 ∧ ∃ j, IsDivider 256 j)) := by
  refine ⟨by unfold IsScaledFloor P1Fits P2Fits P3Fits IsDivider; decide,
    by unfold IsScaledFloor P1Fits P2Fits P3Fits IsDivider; decide, ⟨by decide, ?_, ?_⟩, ⟨by decide, ?_, ?_⟩⟩
  · unfold IsScaledFloor
    decide
  · rintro ⟨h, -⟩
    exact absurd h (by unfold P1Fits; decide)
  · unfold IsScaledFloor
    decide
  · rintro ⟨-, -, -, j, h⟩
    exact witness_DividerFieldIsTheLogarithm.2.2 j h

/-- A good result of each command, and of each path of ENCMS. -/
theorem witness_FlagsFollowTheOperands :
    (exec (.encms 4 0 1 1) State.reset = .next (writeRes (.ok (sentinelFields 0)) State.reset) ∧
        (writeRes (.ok (sentinelFields 0)) State.reset).res = .ok (sentinelFields 0)) ∧
      exec (.encms 8 0 1 128) State.reset =
        .next (writeRes (.ok (generalFields 0 ⟨512#18, 0#20, 1#20⟩ 7#3)) State.reset) ∧
      exec (.encpll 4 0 1 0) State.reset = .next (writeRes (.ok (pllFields sentinel)) State.reset) :=
  ⟨⟨rfl, rfl⟩, rfl, rfl⟩

theorem witness_DividerFieldOfEveryGoodResult :
    exec (.encms 8 0 1 128) State.reset =
        .next (writeRes (.ok (generalFields 0 ⟨512#18, 0#20, 1#20⟩ 7#3)) State.reset) ∧
      opOf (.encms 8 0 1 128) = true ∧ nOf (.encms 8 0 1 128) ≠ 4 ∧ nOf (.encms 4 0 1 128) = 4 ∧
      opOf (.encpll 8 0 1 128) = false :=
  ⟨rfl, by decide, by decide, by decide, by decide⟩

theorem witness_EveryPresentedCommandCompletes :
    (stateOf .empty [.present 0#129]).pending = .present 0#129 :: [] := rfl

theorem witness_MasksThatCanOccur :
    exec (.encms 8 0 0 3) State.reset = .next (writeRes (.err 0b11000#5) State.reset) ∧ Config.minOpw ≤ 21 ∧
      0b01000#5 ∈ pllMasks ∧ 0b11000#5 ∈ msMasks :=
  ⟨rfl, by decide, by decide, by decide⟩

/-- Both ends of a, of d and of R, with the largest denominators. -/
theorem witness_WellFormedSettingNeverFails :
    (DividerSetting.mk 15 0 1 6 0 1 1).invariant = true ∧
      (DividerSetting.mk 90 1048574 1048575 900 1048574 1048575 128).invariant = true ∧
      (DividerSetting.mk 90 1048574 1048575 900 1048574 1048575 128).d ≠ 4 ∧
      (DividerSetting.mk 15 0 1 4 0 1 1).invariant = true ∧ (DividerSetting.mk 15 0 1 4 0 1 1).d = 4 := by decide

theorem witness_WellFormedHostGetsGoodResults :
    wellFormedHostCommand (.encpll 90 1048575 1048575 7) = true ∧ wellFormedHostCommand (.encms 4 0 1 1) = true ∧
      wellFormedHostCommand (.encms 900 0 1 128) = true := by decide

theorem witness_DecodeAndEncodeAgree :
    (Instr.encpll 4294967295 4294967295 4294967295 4294967295).wellFormed 32 = true ∧
      (Instr.encms 0 0 0 0).wellFormed 21 = true := by decide

theorem witness_FieldsOfFormatC : 4294967295 < 2 ^ 32 ∧ 0 < 2 ^ 21 := by decide

theorem witness_AssemblingADisassembledCommand :
    (Instr.encpll 24 0 1 3735928559).wellFormed 32 = true ∧ (Instr.encms 8 1 3 4).wellFormed 32 = true := by decide

theorem witness_DisassemblyLosesNoBit : disassemble (.encpll 24 0 1 7) = disassemble (.encpll 24 0 1 7) := rfl

theorem witness_StepRunsThePresentedCommand :
    (stateOf .empty [.present 1#129, .read]).pending = .present 1#129 :: [.read] := rfl

theorem witness_FetchWordRunsNext :
    (Instr.encms 4 0 1 1).wellFormed Config.opw = true ∧ 129 ≤ 129 ∧ 129 ≤ 136 := by decide

theorem witness_ReadsAreRepeatable :
    (stateOf .empty [.read, .read, .reset]).pending = List.replicate 2 .read ++ [.reset] := rfl

theorem witness_ReadReturnsThePrecedingResult :
    (stateOf .empty [.present 0#129, .read, .present 1#129]).pending = .present 0#129 :: .read :: .present 1#129 :: [] := rfl

theorem witness_UnreadResultIsLost :
    (stateOf .empty [.present 0#129, .present 1#129]).pending = .present 0#129 :: .present 1#129 :: [] ∧
      (stateOf .empty [.present 0#129, .reset]).pending = .present 0#129 :: .reset :: [] := ⟨rfl, rfl⟩

theorem witness_LosslessHostGetsEveryResult :
    lossless [.present 0x100000001000000010000000000000004#129, .readPort .p3, .read, .present 0#129, .read, .reset] = true ∧
      readsDataOnlyWhileValid .empty
        [.present 0x100000001000000010000000000000004#129, .readPort .p3, .read, .present 0#129, .read, .reset] = true := by
  decide

theorem witness_OnlyCommandsAndResetWriteRes :
    step (stateOf .empty [.read]) = .next { res := .empty, pending := [], seen := [.whole .empty] } := rfl

/-- A host that reads a data field of a good result, and one that reads it after the reset that emptied RES. -/
theorem witness_EveryActionIsPerformed :
    readsDataOnlyWhileValid (.ok (sentinelFields 0)) [.readPort .p1, .reset, .readPort .err] = true ∧
      readsDataOnlyWhileValid (.ok (sentinelFields 0)) [.reset, .readPort .p1] = false := by decide

theorem witness_IdleKeepsRes : (stateOf (.err 0b00001#5) []).pending = [] := rfl

/-- Two instances under an interleaving, as R139 has them: the host of the first reads a data port of an empty RES, which stops
that instance, and the second packs and reads as it does alone. -/
theorem witness_InstancesDoNotInterfere :
    (let ys := runSchedule [1, 0, 1, 0] #v[.next (stateOf .empty [.readPort .p1, .read]),
      .next (stateOf .empty [.present 0x100000001000000010000000000000004#129, .read])]
    match ys[0], ys[1] with
    | .fault f, .next t =>
      decide (f = .dataPortWithoutValue .p1 ∧ t.pending = [] ∧ t.seen = [.whole (.ok (sentinelFields 0))])
    | _, _ => false) = true ∧ (0 : Fin 2) ≠ 1 := by decide

theorem witness_StepKeepsTheInvariant :
    (stateOf (.ok (sentinelFields 0)) [.read]).inv = true ∧
      step (stateOf (.ok (sentinelFields 0)) [.read]) =
        .next { res := .ok (sentinelFields 0), pending := [], seen := [.whole (.ok (sentinelFields 0))] } :=
  ⟨by decide, rfl⟩

theorem witness_CommandLeavesALegalResult :
    exec (.encpll 3 0 1 0) State.reset = .next (writeRes (.err 0b00001#5) State.reset) := rfl

end Sys2Proof.Tests
end

section
/-! Proofs of the family 10_state: the masks and the good results a command can leave, the frame of a command and of a
step, and the invariant of the machine. -/

namespace Sys2Proof.Machine

/-! ### The masks a command can end in (R115) -/

/-- EC_P2 never comes without EC_P3 (R62): t2 is a remainder by q, so it is below q. -/
theorem p3Exceeds_of_p2Exceeds {p q : Nat} (hq : q ≠ 0) (h : p2Exceeds (packT2 p q) = true) :
    p3Exceeds (packT3 q) = true := by
  have hlt : packT2 p q < q := by
    rw [packT2_eq_mod]
    exact Nat.mod_lt _ (Nat.pos_of_ne_zero hq)
  unfold p2Exceeds at h
  unfold p3Exceeds packT3
  simp only [decide_eq_true_eq, Config.p2Max, Config.p3Max] at h ⊢
  omega

/-- A failing bounds mask in which EC_P2 comes only with EC_P3 is one of ENCPLL's. -/
theorem boundsMask_mem_pllMasks {t1 : Int} {t2 t3 : Nat} (hne : boundsMask t1 t2 t3 ≠ 0#5)
    (h23 : p2Exceeds t2 = true → p3Exceeds t3 = true) : boundsMask t1 t2 t3 ∈ pllMasks := by
  unfold boundsMask causeBit at *
  revert hne h23
  cases p1Exceeds t1 <;> cases p2Exceeds t2 <;> cases p3Exceeds t3 <;> decide

/-- GENPACK fails only with the masks of ENCPLL (R115). -/
theorem genpack_error_mem_pllMasks {n p q : Nat} {m : CauseMask} (h : genpack n p q = .error m) : m ∈ pllMasks := by
  unfold genpack boundedFields at h
  split at h
  · cases h
    decide
  · rename_i hq
    split at h
    · cases h
    · rename_i hne
      cases h
      exact boundsMask_mem_pllMasks hne (p3Exceeds_of_p2Exceeds hq)

theorem mem_msMasks_of_mem_pllMasks {m : CauseMask} (h : m ∈ pllMasks) : m ∈ msMasks :=
  List.mem_append_left _ h

/-- Every mask of ENCPLL can occur in ENCMS together with EC_RDIV (R83, R115). -/
theorem or_ecRdiv_mem_msMasks {m : CauseMask} (h : m ∈ pllMasks) : m ||| ecRdiv ∈ msMasks := by
  have all : ∀ m ∈ pllMasks, m ||| ecRdiv ∈ msMasks := by decide
  exact all m h

/-- The mask of the general path of ENCMS, when one of its parts fails, is one that can occur (R83, R115). -/
theorem generalMask_mem_msMasks {n p q r : Nat}
    (h : (∃ m, genpack n p q = .error m) ∨ rdivenc r = .error ecRdiv) :
    maskOf (genpack n p q) ||| maskOf (rdivenc r) ∈ msMasks := by
  cases hg : genpack n p q with
  | error m =>
    have hm := genpack_error_mem_pllMasks hg
    obtain ⟨j, -, hd⟩ | ⟨-, hd⟩ := rdivenc_cases r <;> rw [hd]
    · simpa [maskOf] using mem_msMasks_of_mem_pllMasks hm
    · exact or_ecRdiv_mem_msMasks hm
  | ok g =>
    have hd : rdivenc r = .error ecRdiv := by simpa [hg] using h
    rw [hd]
    change 0#5 ||| ecRdiv ∈ msMasks
    decide

/-- A command ends only in a mask that can occur (R115). -/
theorem exec_err_mem_msMasks {i : Instr} {s t : State} {m : CauseMask} (h : exec i s = .next t)
    (hr : t.res = .err m) : m ∈ msMasks := by
  obtain ⟨n, p, q, r, -, hg⟩ | ⟨n, p, q, r, -, -, rfl, hfail⟩ := exec_err_cases h hr
  · exact mem_msMasks_of_mem_pllMasks (genpack_error_mem_pllMasks hg)
  · exact generalMask_mem_msMasks hfail

/-! ### The good results a command can end in (R13, R68) -/

/-- The fields GENPACK returns hold the three values of the formula (R58, R59). -/
theorem genpack_ok_hold {n p q : Nat} {g : PackedFields} (h : genpack n p q = .ok g) :
    ∃ k, IsScaledFloor k p q ∧ g.Hold n k p q := by
  obtain ⟨-, he⟩ | ⟨k, g', hk, -, -, -, hg, hold⟩ | ⟨k, -, -, he⟩ := genpack_cases n p q
  · rw [he] at h
    cases h
  · rw [hg] at h
    cases h
    exact ⟨k, hk, hold⟩
  · rw [he] at h
    cases h

/-- UNPACK's k is the packed floor modulo 128, for BIAS and 128·n are multiples of 128 (R68). -/
theorem PackedFields.Hold.unpackK_eq {g : PackedFields} {n k p q : Nat} (hold : g.Hold n k p q) :
    unpackK g = k % 128 := by
  obtain ⟨h1, -, -⟩ := hold
  unfold unpackK unpackSum
  rw [h1]
  exact Nat.mul_add_mod ..

/-- Packed fields are a valid triple, also for p ≥ q: the integer part in k moves into P1 and leaves a multiple of 128
(R64, R68). -/
theorem PackedFields.Hold.validTriple {g : PackedFields} {n k p q : Nat} (hk : IsScaledFloor k p q)
    (hold : g.Hold n k p q) : g.validTriple = true := by
  have hK := hold.unpackK_eq
  obtain ⟨-, h2, h3⟩ := hold
  have hpos := hk.q_ne_zero
  have hlt := hk.lt
  have hsplit : 128 * (q * (k / 128)) + q * (k % 128) = q * k := by
    rw [Nat.mul_left_comm, ← Nat.mul_add, Nat.div_add_mod]
  simp only [PackedFields.validTriple, Bool.and_eq_true, decide_eq_true_eq, Config.scale, hK, h3]
  refine ⟨⟨?_, ?_⟩, ?_⟩ <;> omega

/-- A zero numerator leaves no fraction: P2 = 0 and P1 is a multiple of 128 (R58, R79). -/
theorem PackedFields.Hold.of_zero_numerator {g : PackedFields} {n k q : Nat} (hk : IsScaledFloor k 0 q)
    (hold : g.Hold n k 0 q) : g.p2 = 0#20 ∧ g.p1.toNat % 128 = 0 := by
  obtain ⟨h1, h2, -⟩ := hold
  have hk0 : k = 0 := by
    rw [← hk.eq]
    exact Nat.zero_div q
  subst hk0
  exact ⟨BitVec.eq_of_toNat_eq (Nat.eq_zero_of_add_eq_zero_right h2), by omega⟩

theorem pllFields_legal {n p q : Nat} {g : PackedFields} (h : genpack n p q = .ok g) : (pllFields g).legal = true := by
  obtain ⟨k, hk, hold⟩ := genpack_ok_hold h
  simp [Fields.legal, pllFields, hold.validTriple hk]

theorem sentinelFields_legal (p : Nat) : (sentinelFields p).legal = true := by
  unfold sentinelFields
  cases intFlag p <;> decide

theorem generalFields_legal {n p q : Nat} {g : PackedFields} (rd : RdivField) (h : genpack n p q = .ok g) :
    (generalFields p g rd).legal = true := by
  obtain ⟨k, hk, hold⟩ := genpack_ok_hold h
  by_cases hp : p = 0
  · subst hp
    obtain ⟨h2, h1⟩ := hold.of_zero_numerator hk
    simp [Fields.legal, generalFields, div4Flag, hold.validTriple hk, h1, h2]
  · simp [Fields.legal, generalFields, div4Flag, intFlag, hold.validTriple hk, hp]

/-- A command's good result is legal. -/
theorem exec_ok_legal {i : Instr} {s t : State} {f : Fields} (h : exec i s = .next t) (hr : t.res = .ok f) :
    f.legal = true := by
  obtain ⟨_, _, _, _, _, -, hg, rfl⟩ | ⟨p, _, _, -, rfl⟩ | ⟨_, _, _, _, _, _, -, -, hg, -, rfl⟩ :=
    exec_ok_cases h hr
  · exact pllFields_legal hg
  · exact sentinelFields_legal p
  · exact generalFields_legal _ hg

/-- A command leaves a legal result, whatever RES held before (R13, R115, R133). -/
theorem exec_res_legal {i : Instr} {s t : State} (h : exec i s = .next t) : t.res.legal = true := by
  cases hr : t.res with
  | empty => rfl
  | ok f => exact exec_ok_legal h hr
  | err m => exact decide_eq_true (exec_err_mem_msMasks h hr)

theorem resultOf_legal (i : Instr) : (resultOf i).legal = true :=
  exec_res_legal (exec_eq i State.reset)

/-! ### The frame of a command (R12, R20, R118) -/

/-- The general path of ENCMS ends in a good result or in an error (R78, R83). -/
theorem execGeneral_completes (p : Nat) (g : Except CauseMask PackedFields) (d : Except CauseMask RdivField)
    (s : State) :
    ∃ r : Res, (r.valid = true ∨ r.isErr = true) ∧ execGeneral p g d s = .next (writeRes r s) := by
  match g, d with
  | .ok g, .ok rd => exact ⟨_, .inl rfl, execGeneral_ok p g rd s⟩
  | .error m, d => exact ⟨_, .inr rfl, execGeneral_error_left p m d s⟩
  | g, .error m => exact ⟨_, .inr rfl, execGeneral_error_right p g m s⟩

/-- A command ends in a good result or in an error, never in Empty (R118). -/
theorem exec_completes (i : Instr) (s : State) :
    ∃ r : Res, (r.valid = true ∨ r.isErr = true) ∧ exec i s = .next (writeRes r s) := by
  cases i with
  | encpll n p q r =>
    cases hg : genpack n p q with
    | ok g => exact ⟨_, .inl rfl, execEncpll_ok r s hg⟩
    | error m => exact ⟨_, .inr rfl, execEncpll_error r s hg⟩
  | encms n p q r =>
    by_cases hn : n = 4
    · subst hn
      exact ⟨_, .inl rfl, execEncms_sentinel p q r s⟩
    · rw [execEncms_general hn]
      exact execGeneral_completes ..

theorem resultOf_valid_or_isErr (i : Instr) : (resultOf i).valid = true ∨ (resultOf i).isErr = true := by
  obtain ⟨r, hr, h⟩ := exec_completes i State.reset
  rw [exec_eq] at h
  cases h
  exact hr

/-! ### The invariant of the machine -/

theorem State.inv_iff (s : State) : s.inv = true ↔ s.res.legal = true ∧ ∀ o ∈ s.seen, o.legal = true := by
  simp [State.inv]

/-- A read that returned something legal keeps the invariant, whatever actions remain. -/
theorem State.inv_of_noted {s : State} {o : Observation} (rest : List HostAction) (hs : s.inv = true)
    (ho : o.legal = true) : State.inv { s with pending := rest, seen := s.seen ++ [o] } = true := by
  rw [State.inv_iff] at hs ⊢
  obtain ⟨hres, hseen⟩ := hs
  refine ⟨hres, fun o' ho' => ?_⟩
  obtain h | h := List.mem_append.1 ho'
  · exact hseen o' h
  · rw [List.mem_singleton.1 h]
    exact ho

/-- Writing a legal RES keeps the invariant, whatever actions remain. -/
theorem State.inv_of_written {s : State} {r : Res} (rest : List HostAction) (hs : s.inv = true)
    (hr : r.legal = true) : State.inv { s with res := r, pending := rest } = true := by
  rw [State.inv_iff] at hs ⊢
  exact ⟨hr, hs.2⟩

/-- Settles O50, by the cases of a step: a command and a reset write a legal RES, and a read notes a legal RES or a value that
fits its port. -/
theorem stepKeepsTheInvariant : Obligations.StepKeepsTheInvariant := by
  intro s t hs h
  obtain ⟨-, he⟩ | ⟨w, rest, -, he⟩ | ⟨rest, -, he⟩ | ⟨p, v, rest, -, hv, he⟩ | ⟨p, rest, -, -, -, he⟩ |
    ⟨rest, -, he⟩ := step_cases s <;> rw [he] at h <;> cases h
  · exact hs
  · exact State.inv_of_written rest hs (resultOf_legal _)
  · exact State.inv_of_noted rest hs ((State.inv_iff s).1 hs).1
  · exact State.inv_of_noted rest hs (decide_eq_true (portValue_lt hv))
  · exact State.inv_of_written rest hs rfl

/-- Settles O51: RES is Empty and nothing has been read. -/
theorem resetMeetsTheInvariant : Obligations.ResetMeetsTheInvariant :=
  (State.inv_iff _).2 ⟨rfl, fun _ ho => absurd ho List.not_mem_nil⟩

/-! ### The fields of a good result, the frames, and the ports -/

/-- Settles O22, by where a good result comes from. -/
theorem flagsFollowTheOperands : Obligations.FlagsFollowTheOperands := by
  intro i s t f h hr
  obtain ⟨n, p, q, r, g, rfl, -, rfl⟩ | ⟨p, q, r, rfl, rfl⟩ | ⟨n, p, q, r, g, j, hn, rfl, -, -, rfl⟩ :=
    exec_ok_cases h hr
  · simp [pllFields, opOf]
  · simp [sentinelFields, div4Flag, intFlag, opOf, nOf, pOf]
  · simp [generalFields, div4Flag, intFlag, opOf, nOf, pOf, hn]

/-- Settles O23, by where a good result comes from: in the general path the logarithm is below 8 and fits RDIV. -/
theorem dividerFieldOfEveryGoodResult : Obligations.DividerFieldOfEveryGoodResult := by
  intro i s t f h hr
  obtain ⟨n, p, q, r, g, rfl, -, rfl⟩ | ⟨p, q, r, rfl, rfl⟩ | ⟨n, p, q, r, g, j, hn, rfl, -, ⟨hj, rfl⟩, rfl⟩ :=
    exec_ok_cases h hr
  · simp [pllFields, opOf]
  · simp [sentinelFields, nOf]
  · have hfit : (BitVec.ofNat 3 j).toNat = j := (BitVec.toNat_ofNat j 3).trans (Nat.mod_eq_of_lt hj)
    simp [generalFields, opOf, nOf, rOf, hn, hfit]

/-- Settles O24: the one RES is the command's result. -/
theorem commandWritesResAndNothingElse : Obligations.CommandWritesResAndNothingElse :=
  fun i => ⟨resultOf i, resultOf_valid_or_isErr i, exec_eq i⟩

/-- Settles O45, by the cases of a step. -/
theorem onlyCommandsAndResetWriteRes : Obligations.OnlyCommandsAndResetWriteRes := by
  intro s t h
  obtain ⟨hp, he⟩ | ⟨w, rest, hp, he⟩ | ⟨rest, hp, he⟩ | ⟨p, v, rest, hp, -, he⟩ | ⟨p, rest, -, -, -, he⟩ |
    ⟨rest, hp, he⟩ := step_cases s <;> rw [he] at h <;> cases h
  · exact ⟨.inl rfl, by simp [hp]⟩
  · exact ⟨.inr (.inl ⟨w, rest, hp⟩), by simp [hp]⟩
  · exact ⟨.inl rfl, by simp [hp]⟩
  · exact ⟨.inl rfl, by simp [hp]⟩
  · exact ⟨.inr (.inr ⟨rest, hp⟩), by simp [hp]⟩

/-- Settles O1. -/
theorem resetLeavesResEmpty : Obligations.ResetLeavesResEmpty :=
  ⟨rfl, rfl, rfl, rfl, fun p hp => (portValue_eq_none _ p).2 ⟨hp, rfl⟩⟩

/-- Settles O3, by the three alternatives of RES. -/
theorem statusPairEncodesTheAlternative : Obligations.StatusPairEncodesTheAlternative := by
  intro r
  cases r with
  | empty => simp
  | ok f => simp
  | err m => simp

/-- Settles O5: each port is defined as its field, and `portValue_lt` bounds it. -/
theorem portsShowTheFieldsOfRes : Obligations.PortsShowTheFieldsOfRes :=
  ⟨fun _ => ⟨rfl, rfl, rfl⟩, fun _ => ⟨rfl, rfl, rfl, rfl, rfl, rfl, rfl⟩, fun _ _ _ => portValue_lt⟩

end Sys2Proof.Machine
end

section
/-! PROOFS. Reads of RES and the sequence of the host's actions (spec/20_memory.md R34, R35; R131, R136, R137): what each
action does as the next step, and what a host that reads every result before it is replaced gets. -/

namespace Sys2Proof.Machine

/-! ### The steps that `Laws/Exec.lean` has no equation for -/

/-- A step with no action at hand is idle (R34; log 3). -/
theorem step_nil {s : State} (h : s.pending = []) : step s = .next s := by
  simp [step, fetch, h, idle]

/-- A step with a reset at hand empties RES (R130). -/
theorem step_reset {s : State} {rest : List HostAction} (h : s.pending = .reset :: rest) :
    step s = .next { s with res := .empty, pending := rest } :=
  step_cons h

/-- A step with a port read at hand notes the port's value, on a data port while VALID = 1 (R14, R16). -/
theorem step_readPort {s : State} {p : Port} {rest : List HostAction} (h : s.pending = .readPort p :: rest)
    (hp : p.isData = false ∨ s.res.valid = true) :
    ∃ v, portValue s.res p = some v ∧
      step s = .next { s with pending := rest, seen := s.seen ++ [.port p v] } := by
  rw [step_cons h]
  obtain ⟨v, hv, he⟩ | ⟨hd, hi, -⟩ := readPort_cases p { s with pending := rest }
  · exact ⟨v, hv, he⟩
  · have hi : s.res.valid = false := hi
    simp [hd, hi] at hp

/-! ### Steps, and short runs -/

/-- Settles O39: a step performs the action at hand, and performing a presented word is `exec` of its decode. -/
theorem stepRunsThePresentedCommand : Obligations.StepRunsThePresentedCommand :=
  fun _ _ _ h => step_cons h

/-- Settles O48. -/
theorem idleKeepsRes : Obligations.IdleKeepsRes :=
  fun _ h => step_nil h

/-- Settles O41, by induction on the number of reads: the first one leaves RES as the others find it. -/
theorem readsAreRepeatable : Obligations.ReadsAreRepeatable := by
  intro k
  induction k with
  | zero =>
    intro s rest h
    have h : s.pending = rest := h
    simp [← h]
  | succ k ih =>
    intro s rest h
    rw [run_succ (step_read h), ih _ rest rfl]
    simp [List.replicate_succ]

/-- Settles O42, step by step. -/
theorem readReturnsThePrecedingResult : Obligations.ReadReturnsThePrecedingResult := by
  intro s w w' rest h
  rw [run_succ (step_present h), run_succ (step_read rfl), run_one (step_present rfl)]

/-! ### A lossless host -/

/-- `k` steps from `s` perform every action, and `results` are among what the host notes on the way, in order. -/
def Delivers (results : List Observation) (k : Nat) (s : State) : Prop :=
  ∃ t new, Host.Core.run Sys2Proof.core k s = .next t ∧ t.pending = [] ∧ t.seen = s.seen ++ new ∧
    List.Sublist results new

/-- The read that a host still owes: of the result in RES, while it is unread. -/
def owed : Bool → Res → List Observation
  | true, r => [.whole r]
  | false, _ => []

theorem delivers_nil {s : State} (h : s.pending = []) : Delivers [] 0 s :=
  ⟨s, [], rfl, h, by simp, List.Sublist.refl _⟩

/-- One step more delivers what it notes, or any part of it, before the rest. -/
theorem Delivers.of_step {s u : State} {got noted results : List Observation} {k : Nat} (hs : step s = .next u)
    (hu : u.seen = s.seen ++ noted) (hgot : List.Sublist got noted) (hd : Delivers results k u) :
    Delivers (got ++ results) (k + 1) s := by
  obtain ⟨t, new, hrun, hpending, hseen, hsub⟩ := hd
  refine ⟨t, noted ++ new, (run_succ hs).trans hrun, hpending, ?_, hgot.append hsub⟩
  rw [hseen, hu, List.append_assoc]

/-- A step that notes nothing leaves what is to be delivered as it was. -/
theorem Delivers.of_silent_step {s u : State} {results : List Observation} {k : Nat} (hs : step s = .next u)
    (hu : u.seen = s.seen) (hd : Delivers results k u) : Delivers results (k + 1) s :=
  hd.of_step hs (hu.trans (List.append_nil _).symm) (List.Sublist.refl [])

/-- A read of the whole RES notes the read owed. -/
theorem owed_sublist (unread : Bool) (r : Res) : List.Sublist (owed unread r) [.whole r] := by
  cases unread with
  | true => exact List.Sublist.refl _
  | false => exact List.nil_sublist _

/-- Whether or not the result in RES has been read yet, a host that keeps to R136 and to the first duty of R137 gets that
result, if it is owed, and then the result of each of its commands (R35). -/
theorem delivers_of_losslessFrom (acts : List HostAction) :
    ∀ (unread : Bool) (s : State), s.pending = acts → losslessFrom unread acts = true →
      readsDataOnlyWhileValid s.res acts = true →
      Delivers (owed unread s.res ++ presentedResults acts) acts.length s := by
  induction acts with
  | nil =>
    intro unread s hs hl _
    obtain rfl : unread = false := by simpa [losslessFrom] using hl
    exact delivers_nil hs
  | cons a rest ih =>
    intro unread s hs hl hv
    cases a with
    | present w =>
      obtain ⟨rfl, hl⟩ : unread = false ∧ losslessFrom true rest = true := by simpa [losslessFrom] using hl
      exact (ih true _ rfl hl hv).of_silent_step (step_present hs) rfl
    | read =>
      have hd : Delivers (presentedResults rest) rest.length
          { s with pending := rest, seen := s.seen ++ [.whole s.res] } := ih false _ rfl hl hv
      exact hd.of_step (step_read hs) rfl (owed_sublist unread s.res)
    | readPort p =>
      obtain ⟨hp, hv⟩ : (p.isData = false ∨ s.res.valid = true) ∧ readsDataOnlyWhileValid s.res rest = true := by
        simpa [readsDataOnlyWhileValid] using hv
      obtain ⟨v, -, he⟩ := step_readPort hs hp
      have hd : Delivers (owed unread s.res ++ presentedResults rest) rest.length
          { s with pending := rest, seen := s.seen ++ [.port p v] } := ih unread _ rfl hl hv
      exact hd.of_step (got := []) he rfl (List.nil_sublist _)
    | reset =>
      obtain ⟨rfl, hl⟩ : unread = false ∧ losslessFrom false rest = true := by simpa [losslessFrom] using hl
      exact (ih false _ rfl hl hv).of_silent_step (step_reset hs) rfl

/-- Settles O44: no read is owed at first. -/
theorem losslessHostGetsEveryResult : Obligations.LosslessHostGetsEveryResult :=
  fun s hl hv => delivers_of_losslessFrom s.pending false s rfl hl hv

end Sys2Proof.Machine
end

section
/-! PROOFS. The encoding (spec/30_encoding.md): the command word as digits in base 2^OPW, the rows of the opcode map, a table
word placed next, and the operands a command ignores (R42 to R48). -/

namespace Sys2Proof

/-! ### The word of a command, digit by digit (R42, R46) -/

section packed
variable {opw n p q r : Nat}

/-- One digit more: below a digit `d` in base `B`, digit `k + 1` is digit `k` of what stands above. -/
theorem digit_succ {B d : Nat} (hd : d < B) (a k : Nat) : (a * B + d) / B ^ (k + 1) % B = a / B ^ k % B := by
  have hdiv : (a * B + d) / B = a := by
    rw [Nat.mul_comm, Nat.mul_add_div (Nat.zero_lt_of_lt hd), Nat.div_eq_of_lt hd, Nat.add_zero]
  rw [Nat.pow_succ', ← Nat.div_div_eq_div_mul, hdiv]

/-- The lowest digit. -/
theorem digit_zero {B d : Nat} (hd : d < B) (a : Nat) : (a * B + d) / B ^ 0 % B = d := by
  rw [Nat.pow_zero, Nat.div_one, Nat.mul_comm, Nat.mul_add_mod, Nat.mod_eq_of_lt hd]

/-- An operand field is a digit of the word in base 2^OPW (R42). -/
theorem operandField_eq_digit (opw k : Nat) (w : CommandWord opw) :
    operandField opw k w = w.toNat / (2 ^ opw) ^ k % 2 ^ opw := by
  rw [operandField_eq, Nat.mul_comm, Nat.pow_mul]

/-- The operand fields of a packed word are the operands packed (R42). -/
theorem operandFields_packWord (op : Bool) (hn : n < 2 ^ opw) (hp : p < 2 ^ opw) (hq : q < 2 ^ opw) (hr : r < 2 ^ opw) :
    fieldN opw (packWord opw op n p q r) = n ∧ fieldP opw (packWord opw op n p q r) = p ∧
      fieldQ opw (packWord opw op n p q r) = q ∧ fieldR opw (packWord opw op n p q r) = r := by
  simp only [fieldN, fieldP, fieldQ, fieldR, operandField_eq_digit, packWord_toNat opw op hn hp hq hr]
  refine ⟨digit_zero hn _, ?_, ?_, ?_⟩
  · rw [digit_succ hn, digit_zero hp]
  · rw [digit_succ hn, digit_succ hp, digit_zero hq]
  · rw [digit_succ hn, digit_succ hp, digit_succ hq, digit_zero hr]

/-- The packed word as a number of the form of R42. -/
theorem packWord_eq_ofNat (op : Bool) (hn : n < 2 ^ opw) (hp : p < 2 ^ opw) (hq : q < 2 ^ opw) (hr : r < 2 ^ opw) :
    packWord opw op n p q r = BitVec.ofNat (commandBits opw)
      (op.toNat * 2 ^ (4 * opw) + r * 2 ^ (3 * opw) + q * 2 ^ (2 * opw) + p * 2 ^ opw + n) := by
  have horner : (packWord opw op n p q r).toNat =
      op.toNat * 2 ^ (4 * opw) + r * 2 ^ (3 * opw) + q * 2 ^ (2 * opw) + p * 2 ^ opw + n := by
    rw [packWord_toNat opw op hn hp hq hr]
    ring
  rw [← horner, BitVec.ofNat_toNat, BitVec.setWidth_eq]

end packed

theorem Instr.wellFormed_encpll_iff (opw n p q r : Nat) :
    (Instr.encpll n p q r).wellFormed opw = true ↔ n < 2 ^ opw ∧ p < 2 ^ opw ∧ q < 2 ^ opw ∧ r < 2 ^ opw := by
  simp [Instr.wellFormed, fitsOperand, and_assoc]

theorem Instr.wellFormed_encms_iff (opw n p q r : Nat) :
    (Instr.encms n p q r).wellFormed opw = true ↔ n < 2 ^ opw ∧ p < 2 ^ opw ∧ q < 2 ^ opw ∧ r < 2 ^ opw := by
  simp [Instr.wellFormed, fitsOperand, and_assoc]

/-- Decoding the word of a well-formed command gives the command back (R46). -/
theorem decode_encode {opw : Nat} {i : Instr} (h : i.wellFormed opw = true) : decode opw (encode opw i) = i := by
  cases i with
  | encpll n p q r =>
    obtain ⟨hn, hp, hq, hr⟩ := (Instr.wellFormed_encpll_iff opw n p q r).1 h
    obtain ⟨en, ep, eq, er⟩ := operandFields_packWord false hn hp hq hr
    simp [encode, decode, fieldOp_packWord, en, ep, eq, er]
  | encms n p q r =>
    obtain ⟨hn, hp, hq, hr⟩ := (Instr.wellFormed_encms_iff opw n p q r).1 h
    obtain ⟨en, ep, eq, er⟩ := operandFields_packWord true hn hp hq hr
    simp [encode, decode, fieldOp_packWord, en, ep, eq, er]

theorem operandField_lt (opw k : Nat) (w : CommandWord opw) : operandField opw k w < 2 ^ opw :=
  of_decide_eq_true (operandField_fits opw k w)

/-- OP is what stands above the four operand fields, for a word has one bit more than they have (R42). -/
theorem fieldOp_toNat (opw : Nat) (w : CommandWord opw) : (fieldOp opw w).toNat = w.toNat / (2 ^ opw) ^ 4 := by
  have hlt : w.toNat / 2 ^ (4 * opw) < 2 := by
    rw [Nat.div_lt_iff_lt_mul (Nat.two_pow_pos _), ← Nat.pow_succ', Nat.succ_eq_one_add]
    exact w.isLt
  rw [← Nat.pow_mul, Nat.mul_comm opw 4, fieldOp, BitVec.getLsbD, Nat.toNat_testBit, Nat.mod_eq_of_lt hlt]

/-- Packing the fields of a word gives the word back (R46). -/
theorem packWord_fields (opw : Nat) (w : CommandWord opw) :
    packWord opw (fieldOp opw w) (fieldN opw w) (fieldP opw w) (fieldQ opw w) (fieldR opw w) = w := by
  have join (k : Nat) :
      w.toNat / (2 ^ opw) ^ (k + 1) * 2 ^ opw + operandField opw k w = w.toNat / (2 ^ opw) ^ k := by
    rw [operandField_eq_digit, Nat.pow_succ, ← Nat.div_div_eq_div_mul, Nat.div_add_mod']
  apply BitVec.eq_of_toNat_eq
  unfold fieldN fieldP fieldQ fieldR
  rw [packWord_toNat opw _ (operandField_lt opw 0 w) (operandField_lt opw 1 w) (operandField_lt opw 2 w)
    (operandField_lt opw 3 w), fieldOp_toNat, join 3, join 2, join 1, join 0, Nat.pow_zero, Nat.div_one]

/-- Encoding a decoded word gives the word back (R46). -/
theorem encode_decode (opw : Nat) (w : CommandWord opw) : encode opw (decode opw w) = w := by
  have h := packWord_fields opw w
  unfold decode
  cases hop : fieldOp opw w <;> rw [hop] at h
  · exact h
  · exact h

/-- Every decoded command is well-formed (R44). -/
theorem decode_wellFormed (opw : Nat) (w : CommandWord opw) : (decode opw w).wellFormed opw = true := by
  have fits (k : Nat) := operandField_fits opw k w
  unfold decode
  cases fieldOp opw w <;> simp [Instr.wellFormed, fieldN, fieldP, fieldQ, fieldR, fits]

end Sys2Proof

namespace Sys2Proof.Machine

section decoded
variable (opw : Nat) (w : CommandWord opw)

@[simp] theorem opOf_decode : opOf (decode opw w) = fieldOp opw w := by
  unfold decode
  cases fieldOp opw w <;> rfl

@[simp] theorem nOf_decode : nOf (decode opw w) = fieldN opw w := by
  unfold decode
  cases fieldOp opw w <;> rfl

@[simp] theorem pOf_decode : pOf (decode opw w) = fieldP opw w := by
  unfold decode
  cases fieldOp opw w <;> rfl

@[simp] theorem qOf_decode : qOf (decode opw w) = fieldQ opw w := by
  unfold decode
  cases fieldOp opw w <;> rfl

@[simp] theorem rOf_decode : rOf (decode opw w) = fieldR opw w := by
  unfold decode
  cases fieldOp opw w <;> rfl

end decoded

/-- Settles O32: decoding reads each digit of the word in base 2^OPW, and the digits make the word. -/
theorem decodeAndEncodeAgree : Obligations.DecodeAndEncodeAgree := by
  refine fun opw => ⟨fun i => decode_encode, fun w => ⟨encode_decode opw w, opOf_decode opw w, ?_⟩⟩
  simp [fieldN, fieldP, fieldQ, fieldR, operandField_eq]

/-- Settles O33: the number is the word of the command, which `decode_encode` reads back. -/
theorem fieldsOfFormatC : Obligations.FieldsOfFormatC := by
  intro opw n p q r hn hp hq hr
  constructor
  · have hword : encode opw (.encpll n p q r) = _ := packWord_eq_ofNat false hn hp hq hr
    simpa [hword] using decode_encode ((Instr.wellFormed_encpll_iff opw n p q r).2 ⟨hn, hp, hq, hr⟩)
  · have hword : encode opw (.encms n p q r) = _ := packWord_eq_ofNat true hn hp hq hr
    simpa [hword] using decode_encode ((Instr.wellFormed_encms_iff opw n p q r).2 ⟨hn, hp, hq, hr⟩)

/-- Settles O34: an operand field is a slice of OPW bits. -/
theorem decodedOperandsFitOpw : Obligations.DecodedOperandsFitOpw :=
  decode_wellFormed

/-! ### The rows of the opcode map (R45) -/

/-- The mask of both rows, which is ENCMS's match too, is the OP bit alone. -/
theorem rowMask_eq_twoPow (opw : Nat) : rowMask opw = BitVec.twoPow (commandBits opw) (4 * opw) := by
  have h0 : 0 < 2 ^ opw := Nat.two_pow_pos opw
  rw [rowMask, packWord_eq_ofNat true h0 h0 h0 h0]
  apply BitVec.eq_of_toNat_eq
  rw [BitVec.toNat_twoPow, BitVec.toNat_ofNat]
  simp

/-- Under the mask of the rows a word is its OP bit. -/
theorem and_rowMask (opw : Nat) (w : CommandWord opw) :
    w &&& rowMask opw = if fieldOp opw w then rowMask opw else 0#(commandBits opw) := by
  rw [rowMask_eq_twoPow, BitVec.and_twoPow, fieldOp]

theorem rowMask_ne_zero (opw : Nat) : rowMask opw ≠ 0#(commandBits opw) := by
  intro h
  have hop : fieldOp opw (rowMask opw) = true := fieldOp_packWord opw true 0 0 0 0
  simp [h, fieldOp] at hop

theorem rowSelects_encpllMatch (opw : Nat) (w : CommandWord opw) :
    rowSelects (rowMask opw) (encpllMatch opw) w = !fieldOp opw w := by
  unfold rowSelects encpllMatch
  rw [and_rowMask]
  cases fieldOp opw w <;> simp [rowMask_ne_zero]

theorem rowSelects_encmsMatch (opw : Nat) (w : CommandWord opw) :
    rowSelects (rowMask opw) (encmsMatch opw) w = fieldOp opw w := by
  have hmatch : encmsMatch opw = rowMask opw := rfl
  unfold rowSelects
  rw [hmatch, and_rowMask]
  cases fieldOp opw w <;> simp [(rowMask_ne_zero opw).symm]

/-- Settles O35: a row's mask leaves the OP bit alone, and the two matches are its two values. -/
theorem opcodeRowsPartitionTheWords : Obligations.OpcodeRowsPartitionTheWords := by
  refine ⟨fun opw w => ?_, by decide, by decide, by decide⟩
  simp [rowSelects_encpllMatch, rowSelects_encmsMatch]

/-! ### A table word placed next (log 2, log 8) -/

/-- A table word of at least 129 bits holds a whole command word. -/
theorem tableBits_toNat {nbits : Nat} (h : 129 ≤ nbits) (w : CommandWord Config.opw) :
    tableBits nbits w.toNat = w.toNat :=
  Nat.mod_eq_of_lt (w.isLt.trans_le (Nat.pow_le_pow_right Nat.two_pos h))

theorem decodeBits_toNat (opw : Nat) (w : CommandWord opw) : decodeBits opw w.toNat = .ok (decode opw w) := by
  simp [decodeBits, w.isLt]

theorem decodeTableWord_toNat {nbits : Nat} (h : 129 ≤ nbits) (w : CommandWord Config.opw) :
    decodeTableWord nbits w.toNat = some (decode Config.opw w) := by
  rw [decodeTableWord, tableBits_toNat h, decodeBits_toNat]
  rfl

theorem presentTableWord_toNat {nbits : Nat} (h : 129 ≤ nbits) (w : CommandWord Config.opw) (s : State) :
    presentTableWord nbits w.toNat s = presentNext (.present w) s := by
  rw [presentTableWord, tableBits_toNat h, if_pos w.isLt, BitVec.ofNat_toNat, BitVec.setWidth_eq]

/-- The step after a word has been presented next runs its command, in the state before that. -/
theorem step_presentNext (w : CommandWord Config.opw) (s : State) :
    step (presentNext (.present w) s) = exec (decode Config.opw w) s :=
  step_cons (presentNext_pending _ s)

/-- Settles O40: the table word is the command's word, which decodes to the command. -/
theorem fetchWordRunsNext : Obligations.FetchWordRunsNext := by
  intro i s nbits hwf hbits
  have hdec := decode_encode hwf
  constructor
  · rw [decodeTableWord_toNat hbits, hdec]
  · rw [State.withFetchWord, presentTableWord_toNat hbits, step_presentNext, hdec]

/-! ### Ignored operands (R48) -/

/-- A command does the same with 0 in the operand fields it ignores. -/
theorem exec_withoutIgnored (i : Instr) (s : State) : exec (withoutIgnored i) s = exec i s := by
  cases i with
  | encpll n p q r => rfl
  | encms n p q r =>
    by_cases hn : n = 4
    · subst hn
      rfl
    · simp [withoutIgnored, msVariant, hn]

/-- Commands of different results differ in every state. -/
theorem exec_ne_of_resultOf_ne {i j : Instr} (h : resultOf i ≠ resultOf j) (s : State) : exec i s ≠ exec j s := by
  rw [exec_eq, exec_eq]
  intro he
  injection he with he
  exact h (congrArg State.res he)

/-- Settles O27: ENCPLL does not read R, the sentinel path reads P alone, and on the general path each changed operand gives
another result. -/
theorem ignoredOperandsHaveNoEffect : Obligations.IgnoredOperandsHaveNoEffect :=
  ⟨fun opw w s => ⟨resultOf (decode opw w), exec_eq _ s⟩, fun _ _ _ _ _ _ => rfl, fun _ _ _ _ _ _ => rfl,
    exec_withoutIgnored, fun s => ⟨exec_ne_of_resultOf_ne (by decide) s, exec_ne_of_resultOf_ne (by decide) s,
      exec_ne_of_resultOf_ne (by decide) s, exec_ne_of_resultOf_ne (by decide) s⟩⟩

end Sys2Proof.Machine
end

section
/-! PROOFS. The assembly spelling (spec/30_encoding.md R49): what the assembler reads in a line of the disassembler, and why no
two commands are printed alike. -/

namespace Sys2Proof.Machine

/-! ### Printed numbers -/

theorem isDigit_of_mem_showNat {n : Nat} {c : Char} (h : c ∈ showNat n) : c.isDigit = true :=
  Nat.isDigit_of_mem_toDigits (by decide) (by decide) h

theorem showNat_ne_nil (n : Nat) : showNat n ≠ [] :=
  Nat.toDigits_ne_nil

/-- Letters and digits are not the characters that separate the parts of a line. -/
theorem ne_of_isAlphanum {c d : Char} (hc : c.isAlphanum = true) (hd : d.isAlphanum = false) : c ≠ d := by
  rintro rfl
  simp [hc] at hd

theorem isBlank_of_isAlphanum {c : Char} (hc : c.isAlphanum = true) : isBlank c = false := by
  simp [isBlank, ne_of_isAlphanum hc (d := ' ') rfl, ne_of_isAlphanum hc (d := '\t') rfl]

theorem isAlphanum_of_isDigit {c : Char} (h : c.isDigit = true) : c.isAlphanum = true := by
  simp [Char.isAlphanum, h]

theorem isBlank_of_isDigit {c : Char} (h : c.isDigit = true) : isBlank c = false :=
  isBlank_of_isAlphanum (isAlphanum_of_isDigit h)

theorem decimal_showNat (n : Nat) : decimal (showNat n) = some n := by
  have hdigits : (showNat n).all Char.isDigit = true := List.all_eq_true.2 fun _ => isDigit_of_mem_showNat
  rw [decimal, if_pos ⟨showNat_ne_nil n, hdigits⟩]
  exact congrArg some Nat.ofDigitChars_ten_toDigits

/-- The assembler reads a printed number: `x` is no digit, so it is not taken for a hexadecimal one. -/
theorem number_showNat (n : Nat) : number (showNat n) = some n := by
  unfold number
  split
  next ds h =>
    have hx : 'x' ∈ showNat n := by simp [h]
    exact absurd (isDigit_of_mem_showNat hx) (by decide)
  next => exact decimal_showNat n

theorem showNat_injective : Function.Injective showNat := by
  intro a b h
  have hread := congrArg number h
  simpa [number_showNat] using hread

/-! ### Blanks, commas and comments -/

theorem trimBlanks_cons_blank {c : Char} (hc : isBlank c = true) (t : List Char) :
    trimBlanks (c :: t) = trimBlanks t := by
  simp [trimBlanks, hc]

theorem trimBlanks_append_blank {c : Char} (hc : isBlank c = true) (t : List Char) :
    trimBlanks (t ++ [c]) = trimBlanks t := by
  unfold trimBlanks
  rw [List.dropWhile_append]
  split
  next h => simp [hc, List.isEmpty_iff.1 h]
  next => simp [hc]

/-- A text that begins and ends with characters other than blanks is kept by the trimming. -/
theorem trimBlanks_eq_self {t : List Char} (hfirst : ∀ c ∈ t.head?, isBlank c = false)
    (hlast : ∀ c ∈ t.getLast?, isBlank c = false) : trimBlanks t = t := by
  have keep (l : List Char) (h : ∀ c ∈ l.head?, isBlank c = false) : l.dropWhile isBlank = l := by
    cases l with
    | nil => rfl
    | cons a l => simp [h a rfl]
  rw [trimBlanks, keep t hfirst, keep t.reverse (by simpa using hlast), List.reverse_reverse]

theorem trimBlanks_showNat (n : Nat) : trimBlanks (showNat n) = showNat n :=
  trimBlanks_eq_self
    (fun _ hc => isBlank_of_isDigit (isDigit_of_mem_showNat (List.mem_of_mem_head? hc)))
    (fun _ hc => isBlank_of_isDigit (isDigit_of_mem_showNat (List.mem_of_getLast? hc)))

theorem splitCommas_ne_nil (t : List Char) : splitCommas t ≠ [] := by
  cases t with
  | nil => simp [splitCommas]
  | cons c t =>
    unfold splitCommas
    split
    · simp
    · split <;> simp

/-- A character other than a comma belongs to the first part. -/
theorem splitCommas_cons {c : Char} (hc : c ≠ ',') (t : List Char) :
    ∃ w ws, splitCommas t = w :: ws ∧ splitCommas (c :: t) = (c :: w) :: ws := by
  obtain ⟨w, ws, h⟩ := List.exists_cons_of_ne_nil (splitCommas_ne_nil t)
  exact ⟨w, ws, h, by simp [splitCommas, hc, h]⟩

theorem splitCommas_eq_singleton {w : List Char} (hw : ',' ∉ w) : splitCommas w = [w] := by
  induction w with
  | nil => rfl
  | cons c w ih =>
    simp only [List.mem_cons, not_or] at hw
    simp [splitCommas, Ne.symm hw.1, ih hw.2]

theorem splitCommas_append_comma {w : List Char} (hw : ',' ∉ w) (t : List Char) :
    splitCommas (w ++ ',' :: t) = w :: splitCommas t := by
  induction w with
  | nil => simp [splitCommas]
  | cons c w ih =>
    simp only [List.mem_cons, not_or] at hw
    simp [splitCommas, Ne.symm hw.1, ih hw.2]

/-! ### Printed operands -/

/-- A blank before the first operand is skipped. -/
theorem operandTexts_cons_blank {c : Char} (hc : isBlank c = true) (t : List Char) :
    operandTexts (c :: t) = operandTexts t := by
  have hcomma : c ≠ ',' := by
    rintro rfl
    exact absurd hc (by decide)
  obtain ⟨w, ws, h, h'⟩ := splitCommas_cons hcomma t
  simp [operandTexts, h, h', trimBlanks_cons_blank hc]

theorem comma_not_mem_showNat (n : Nat) : ',' ∉ showNat n := fun h =>
  absurd (isDigit_of_mem_showNat h) (by decide)

/-- The assembler reads the operands that `showOperands` prints. -/
theorem operandTexts_showOperands {xs : List Nat} (hxs : xs ≠ []) : operandTexts (showOperands xs) = xs.map some := by
  induction xs using showOperands.induct with
  | case1 => exact absurd rfl hxs
  | case2 x =>
    simp [operandTexts, showOperands, splitCommas_eq_singleton (comma_not_mem_showNat x), trimBlanks_showNat,
      number_showNat]
  | case3 x xs hne ih =>
    have hsplit : splitCommas (showOperands (x :: xs)) = showNat x :: splitCommas (' ' :: showOperands xs) := by
      rw [← splitCommas_append_comma (comma_not_mem_showNat x)]
      simp [showOperands]
    have hrest : operandTexts (' ' :: showOperands xs) = xs.map some := by
      rw [operandTexts_cons_blank rfl, ih (by simpa using hne)]
    rw [operandTexts] at hrest ⊢
    simp [hsplit, hrest, trimBlanks_showNat, number_showNat]

/-- What printed operands consist of. -/
theorem mem_showOperands {xs : List Nat} {c : Char} (h : c ∈ showOperands xs) :
    c.isDigit = true ∨ c = ',' ∨ c = ' ' := by
  induction xs using showOperands.induct with
  | case1 => simp [showOperands] at h
  | case2 x => exact .inl (isDigit_of_mem_showNat h)
  | case3 x xs hne ih =>
    simp only [showOperands, List.mem_append] at h
    obtain (h | h) | h := h
    · exact .inl (isDigit_of_mem_showNat h)
    · exact .inr (by simpa using h)
    · exact ih h

theorem showOperands_ne_nil {xs : List Nat} (hxs : xs ≠ []) : showOperands xs ≠ [] := by
  cases xs using showOperands.fun_cases with
  | case1 => exact absurd rfl hxs
  | case2 x => exact showNat_ne_nil x
  | case3 x xs hne => simp [showOperands]

/-- Printed operands end with a digit. -/
theorem isDigit_of_getLast?_showOperands {xs : List Nat} {c : Char} (h : c ∈ (showOperands xs).getLast?) :
    c.isDigit = true := by
  induction xs using showOperands.induct with
  | case1 => simp [showOperands] at h
  | case2 x => exact isDigit_of_mem_showNat (List.mem_of_getLast? h)
  | case3 x xs hne ih =>
    rw [showOperands, List.getLast?_append_of_ne_nil _ (showOperands_ne_nil (by simpa using hne))] at h
    · exact ih h
    · exact hne

/-! ### Lines -/

section line
variable {m : List Char} (hm : m = pllMnemonic ∨ m = msMnemonic)
include hm

theorem isAlphanum_of_mem_mnemonic {c : Char} (hc : c ∈ m) : c.isAlphanum = true := by
  have letters : pllMnemonic.all Char.isAlphanum = true ∧ msMnemonic.all Char.isAlphanum = true := ⟨rfl, rfl⟩
  obtain rfl | rfl := hm
  · exact List.all_eq_true.1 letters.1 c hc
  · exact List.all_eq_true.1 letters.2 c hc

theorem not_isBlank_of_mem_mnemonic {c : Char} (hc : c ∈ m) : (!isBlank c) = true := by
  simp [isBlank_of_isAlphanum (isAlphanum_of_mem_mnemonic hm hc)]

/-- The text of a command before its comment has no `;`. -/
theorem stripComment_command (xs : List Nat) (comment : List Char) :
    stripComment (m ++ [' '] ++ showOperands xs ++ comment) = m ++ [' '] ++ showOperands xs ++ stripComment comment := by
  refine List.takeWhile_append_of_pos fun c hc => ?_
  simp only [List.mem_append, List.mem_singleton] at hc
  obtain (hc | rfl) | hc := hc
  · exact bne_iff_ne.2 (ne_of_isAlphanum (isAlphanum_of_mem_mnemonic hm hc) rfl)
  · rfl
  · obtain hc | rfl | rfl := mem_showOperands hc
    · exact bne_iff_ne.2 (ne_of_isAlphanum (isAlphanum_of_isDigit hc) rfl)
    · rfl
    · rfl

/-- A command begins with its mnemonic and ends with a digit. -/
theorem trimBlanks_command {xs : List Nat} (hxs : xs ≠ []) :
    trimBlanks (m ++ [' '] ++ showOperands xs) = m ++ [' '] ++ showOperands xs := by
  apply trimBlanks_eq_self
  · intro c hc
    obtain rfl : 'E' = c := by
      obtain rfl | rfl := hm <;> simpa [pllMnemonic, msMnemonic] using hc
    rfl
  · intro c hc
    rw [List.getLast?_append_of_ne_nil _ (showOperands_ne_nil hxs)] at hc
    exact isBlank_of_isDigit (isDigit_of_getLast?_showOperands hc)

/-- The words of a command are its mnemonic and its operands. -/
theorem assembleCode_command (opw : Nat) {xs : List Nat} (hxs : xs ≠ []) :
    assembleCode opw (m ++ [' '] ++ showOperands xs) = assembleCommand opw m (xs.map some) := by
  have hpos : ∀ c ∈ m, (!isBlank c) = true := fun _ => not_isBlank_of_mem_mnemonic hm
  have hne : m ++ ' ' :: showOperands xs ≠ [] := by simp
  rw [List.append_assoc, List.singleton_append, assembleCode, if_neg hne, List.takeWhile_append_of_pos hpos,
    List.dropWhile_append_of_pos hpos]
  simp [isBlank, operandTexts_cons_blank, operandTexts_showOperands hxs]

/-- A line of a command assembles to the command, whatever its comment. -/
theorem assembleLine_command (opw : Nat) {xs : List Nat} (hxs : xs ≠ []) {comment : List Char}
    (hcomment : stripComment comment = [] ∨ stripComment comment = [' ']) :
    assembleLine opw (m ++ [' '] ++ showOperands xs ++ comment) = assembleCommand opw m (xs.map some) := by
  rw [assembleLine, stripComment_command hm]
  obtain h | h := hcomment
  · rw [h, List.append_nil, trimBlanks_command hm hxs, assembleCode_command hm opw hxs]
  · rw [h, trimBlanks_append_blank rfl, trimBlanks_command hm hxs, assembleCode_command hm opw hxs]

end line

theorem stripComment_ignoredComment (r : Nat) :
    stripComment (ignoredComment r) = [] ∨ stripComment (ignoredComment r) = [' '] := by
  unfold ignoredComment
  split
  · exact .inl rfl
  · exact .inr rfl

/-- Settles O37: the line is the command's mnemonic and operands, for ENCPLL with a comment that the assembler strips, and the
widths fit because the command is well-formed. -/
theorem assemblingADisassembledCommand : Obligations.AssemblingADisassembledCommand := by
  intro opw n p q r
  constructor
  · intro h
    obtain ⟨hn, hp, hq, -⟩ := (Instr.wellFormed_encpll_iff opw n p q r).1 h
    have hwf := (Instr.wellFormed_encpll_iff opw n p q 0).2 ⟨hn, hp, hq, Nat.two_pow_pos opw⟩
    rw [disassemble, assembleLine_command (.inl rfl) opw (by simp) (stripComment_ignoredComment r)]
    simp [assembleCommand, checkWidths, hwf]
  · intro h
    rw [disassemble, ← List.append_nil (_ ++ _), assembleLine_command (.inr rfl) opw (by simp) (.inl rfl)]
    simp [assembleCommand, checkWidths, h, pllMnemonic, msMnemonic]

/-! ### Printing loses no bit -/

theorem takeWhile_isDigit_showNat_append (n : Nat) {t : List Char} (ht : t.takeWhile Char.isDigit = []) :
    (showNat n ++ t).takeWhile Char.isDigit = showNat n := by
  rw [List.takeWhile_append_of_pos fun _ => isDigit_of_mem_showNat, ht, List.append_nil]

/-- A printed number ends where the digits end. -/
theorem showNat_append_inj {a b : Nat} {s t : List Char} (hs : s.takeWhile Char.isDigit = [])
    (ht : t.takeWhile Char.isDigit = []) (h : showNat a ++ s = showNat b ++ t) : a = b ∧ s = t := by
  have hdigits := congrArg (List.takeWhile Char.isDigit) h
  rw [takeWhile_isDigit_showNat_append a hs, takeWhile_isDigit_showNat_append b ht] at hdigits
  obtain rfl := showNat_injective hdigits
  exact ⟨rfl, List.append_cancel_left h⟩

/-- As many operands, printed alike before texts that do not begin with a digit, are the same. -/
theorem showOperands_append_inj {xs ys : List Nat} {s t : List Char} (hlen : xs.length = ys.length)
    (hs : s.takeWhile Char.isDigit = []) (ht : t.takeWhile Char.isDigit = [])
    (h : showOperands xs ++ s = showOperands ys ++ t) : xs = ys ∧ s = t := by
  induction xs generalizing ys with
  | nil =>
    obtain rfl := List.length_eq_zero_iff.1 hlen.symm
    exact ⟨rfl, h⟩
  | cons x xs ih =>
    obtain _ | ⟨y, ys⟩ := ys
    · simp at hlen
    have hlen : xs.length = ys.length := by simpa using hlen
    match xs, ys, hlen with
    | [], [], _ =>
      obtain ⟨rfl, rfl⟩ := showNat_append_inj hs ht h
      exact ⟨rfl, rfl⟩
    | x' :: xs, y' :: ys, hlen =>
      simp only [showOperands, List.append_assoc] at h
      obtain ⟨rfl, hrest⟩ := showNat_append_inj rfl rfl h
      obtain ⟨hxs, rfl⟩ := ih hlen (List.append_cancel_left hrest)
      exact ⟨congrArg _ hxs, rfl⟩

theorem ignoredComment_injective : Function.Injective ignoredComment := by
  intro a b h
  unfold ignoredComment at h
  split at h <;> split at h
  next ha hb => rw [ha, hb]
  next => simp at h
  next => simp at h
  next =>
    rw [List.append_assoc, List.append_assoc] at h
    exact (showNat_append_inj rfl rfl (List.append_cancel_left h)).1

theorem takeWhile_isDigit_ignoredComment (r : Nat) : (ignoredComment r).takeWhile Char.isDigit = [] := by
  unfold ignoredComment
  split <;> rfl

/-- The two mnemonics differ. -/
theorem disassemble_encpll_ne_encms {n p q r n' p' q' r' : Nat} :
    disassemble (.encpll n p q r) ≠ disassemble (.encms n' p' q' r') := by
  simp [disassemble, pllMnemonic, msMnemonic]

/-- Settles O38: the mnemonic, then each operand up to the character after its digits, then the comment are read off the
text. -/
theorem disassemblyLosesNoBit : Obligations.DisassemblyLosesNoBit := by
  intro i j h
  match i, j with
  | .encpll n p q r, .encpll n' p' q' r' =>
    simp only [disassemble, List.append_assoc, List.append_cancel_left_eq] at h
    obtain ⟨hops, hr⟩ := showOperands_append_inj (by simp) (takeWhile_isDigit_ignoredComment r)
      (takeWhile_isDigit_ignoredComment r') h
    obtain rfl := ignoredComment_injective hr
    cases hops
    rfl
  | .encms n p q r, .encms n' p' q' r' =>
    simp only [disassemble, List.append_cancel_left_eq] at h
    obtain ⟨hops, -⟩ := showOperands_append_inj (s := []) (t := []) (by simp) rfl rfl (congrArg (· ++ []) h)
    cases hops
    rfl
  | .encpll .., .encms .. => exact absurd h disassemble_encpll_ne_encms
  | .encms .., .encpll .. => exact absurd h.symm disassemble_encpll_ne_encms

end Sys2Proof.Machine
end

section
/-! PROOFS. The general formula (spec/40_general_formula.md): GENPACK and its mask in plain arithmetic, proper and improper
fractions, UNPACK as its inverse, and RDIVENC (R55 to R69). -/

namespace Sys2Proof.Machine

/-! ### GENPACK and its mask (R55 to R62) -/

/-- Fields that hold the three values keep the bounds of their widths (R60). -/
theorem PackedFields.Hold.fits {g : PackedFields} {n k p q : Nat} (hold : g.Hold n k p q) :
    P1Fits n k ∧ P2Fits k p q ∧ P3Fits q := by
  obtain ⟨e1, e2, e3⟩ := hold
  have w1 := g.p1.isLt
  have w2 := g.p2.isLt
  have w3 := g.p3.isLt
  unfold P1Fits P2Fits P3Fits
  omega

/-- The three values determine the fields. -/
theorem PackedFields.Hold.unique {g g' : PackedFields} {n k p q : Nat} (hold : g.Hold n k p q)
    (hold' : g'.Hold n k p q) : g = g' := by
  obtain ⟨e1, e2, e3⟩ := hold
  obtain ⟨e1', e2', e3'⟩ := hold'
  cases g
  cases g'
  rw [PackedFields.mk.injEq]
  exact ⟨BitVec.eq_of_toNat_eq (Nat.add_right_cancel (e1.trans e1'.symm)),
    BitVec.eq_of_toNat_eq (Nat.add_right_cancel (e2.trans e2'.symm)), BitVec.eq_of_toNat_eq (e3.trans e3'.symm)⟩

section floor
variable {n k p q : Nat} (h : IsScaledFloor k p q)
include h

/-- P2 passes with P3, for t2 is below q (R62). -/
theorem IsScaledFloor.p2Fits (h3 : P3Fits q) : P2Fits k p q := by
  have hlt := h.lt
  unfold P3Fits at h3
  unfold P2Fits
  omega

/-- The mask of an error names each failed test of the bounds and nothing else (R60). -/
theorem genpack_error_bits {m : CauseMask} (hm : genpack n p q = .error m) :
    (m.getLsbD 0 = true ↔ ¬P1Fits n k) ∧ (m.getLsbD 1 = true ↔ ¬P2Fits k p q) ∧ (m.getLsbD 2 = true ↔ ¬P3Fits q) ∧
      m.getLsbD 3 = false ∧ m.getLsbD 4 = false := by
  by_cases hf : P1Fits n k ∧ P2Fits k p q ∧ P3Fits q
  · obtain ⟨h1, h2, h3⟩ := hf
    obtain ⟨g, hg, -⟩ := genpack_ok h h1 h2 h3
    rw [hg] at hm
    cases hm
  · rw [genpack_error h hf] at hm
    cases hm
    obtain ⟨b0, b1, b2, b3, b4⟩ := boundsMask_bits (packT1 n p q) (packT2 p q) (packT3 q)
    rw [b0, b1, b2, ← p1Exceeds_packT1 h, ← p2Exceeds_packT2 h, ← p3Exceeds_packT3]
    simp only [Bool.not_eq_false, true_and]
    exact ⟨b3, b4⟩

/-- GENPACK returns the fields that hold the three values of the formula, and these alone: what fits its field keeps its
bound (R58 to R60). -/
theorem genpack_eq_ok_iff {g : PackedFields} : genpack n p q = .ok g ↔ g.Hold n k p q := by
  constructor
  · intro hg
    obtain ⟨k', hk', hold⟩ := genpack_ok_hold hg
    obtain rfl : k' = k := hk'.eq.symm.trans h.eq
    exact hold
  · intro hold
    obtain ⟨h1, h2, h3⟩ := hold.fits
    obtain ⟨g', hg, hold'⟩ := genpack_ok h h1 h2 h3
    rw [hg, hold'.unique hold]

/-- The packed P2 is the remainder of 128·p by q (R62). -/
theorem PackedFields.Hold.p2_eq_mod {g : PackedFields} (hold : g.Hold n k p q) : g.p2.toNat = 128 * p % q := by
  have hsum := packT2_add p h.q_ne_zero
  rw [h.eq] at hsum
  obtain ⟨-, e2, -⟩ := hold
  rw [← packT2_eq_mod]
  omega

end floor

/-- Settles O6: each of the two outcomes with a floor, and the bits of the mask. -/
theorem genpackIsTheGeneralFormula : Obligations.GenpackIsTheGeneralFormula := by
  refine fun n p q => ⟨?_, fun k h => ⟨genpack_ok h, fun hf => ?_⟩⟩
  · rintro rfl
    exact genpack_zero n p
  · have he := genpack_error h hf
    exact ⟨_, he, genpack_error_bits h he⟩

/-- Settles O7: the model's division is the floor, and the floor is unique. -/
theorem scaledFractionIsTheFloor : Obligations.ScaledFractionIsTheFloor :=
  fun p _ hq _ => ⟨IsScaledFloor.eq, fun hk => hk ▸ scaledFraction_floor p hq⟩

/-- t1 by its definition, with the literals of the rule (R58). -/
theorem packT1_eq (n p q : Nat) : packT1 n p q = ((128 * n + scaledFraction p q : Nat) : Int) - 512 := rfl

theorem packT2_lt (p : Nat) {q : Nat} (hq : q ≠ 0) : packT2 p q < q := by
  rw [packT2_eq_mod]
  exact Nat.mod_lt _ (Nat.pos_of_ne_zero hq)

/-- Settles O8: k and q·k are at most 128·p, and 128 times an operand has 7 bits more than it. -/
theorem intermediatesFitTheirWidths : Obligations.IntermediatesFitTheirWidths := by
  intro opw n p q hopw hn hp _ hq
  have hk : scaledFraction p q ≤ 128 * p := Nat.div_le_self ..
  have hqk := (scaledFraction_floor p hq).le
  have hbig : 2 ^ 21 ≤ 2 ^ opw := Nat.pow_le_pow_right Nat.two_pos hopw
  have h7 : 2 ^ (opw + 7) = 128 * 2 ^ opw := Nat.pow_add' ..
  have h8 : 2 ^ (opw + 8) = 256 * 2 ^ opw := Nat.pow_add' ..
  have h8' : (2 ^ (opw + 8) : Int) = ((256 * 2 ^ opw : Nat) : Int) := by rw [← h8]; norm_cast
  rw [packT1_eq, h7, h8, h8']
  refine ⟨?_, ?_, ?_, ?_, ?_, ?_, ?_, packT2_lt p hq⟩ <;> omega

/-- Settles O9: t2 is below q, so a t2 beyond 20 bits needs a q beyond them. -/
theorem secondFieldIsTheRemainder : Obligations.SecondFieldIsTheRemainder := by
  refine fun n p q hq => ⟨packT2_eq_mod p q, Nat.le_sub_one_of_lt (packT2_lt p hq), fun g hg => ?_, fun m hm hbit => ?_⟩
  · have hk := scaledFraction_floor p hq
    exact ((genpack_eq_ok_iff hk).1 hg).p2_eq_mod hk
  · have hk := scaledFraction_floor p hq
    obtain ⟨-, h2, h3, -, -⟩ := genpack_error_bits hk hm
    have hP2 := h2.1 hbit
    refine ⟨h3.2 fun hP3 => hP2 (hk.p2Fits hP3), ?_⟩
    have hlt := hk.lt
    unfold P2Fits at hP2
    omega

/-! ### Proper fractions (R63) -/

/-- k of a proper fraction (R63). -/
theorem scaledFraction_lt_of_lt {p q : Nat} (h : p < q) : scaledFraction p q < 128 := by
  have hscaled : 128 * p < q * 128 := by omega
  exact Nat.div_lt_of_lt_mul hscaled

/-- The integer parts that pass the P1 test beside a k of at most 7 bits (R63). -/
theorem P1Fits_iff_of_lt {n k : Nat} (hk : k < 128) : P1Fits n k ↔ 4 ≤ n ∧ n ≤ 2051 := by
  unfold P1Fits
  omega

/-- A proper fraction that GENPACK encodes, with the ranges of its fields (R63, R67). -/
theorem genpack_proper {n p q : Nat} (hp : p < q) (hq : q ≤ 1048575) (hn : 4 ≤ n ∧ n ≤ 2051) :
    ∃ g, genpack n p q = .ok g ∧ 128 * n - 512 ≤ g.p1.toNat ∧ g.p1.toNat ≤ 128 * n - 385 ∧ g.p2.toNat < q ∧
      g.p3.toNat = q := by
  have hk := scaledFraction_floor p (Nat.ne_zero_of_lt hp)
  have hlt := scaledFraction_lt_of_lt hp
  obtain ⟨g, hg, hold⟩ := genpack_ok hk ((P1Fits_iff_of_lt hlt).2 hn) (hk.p2Fits hq) hq
  have hP2 := hold.p2_eq_mod hk
  obtain ⟨e1, -, e3⟩ := hold
  exact ⟨g, hg, by omega, by omega, hP2 ▸ Nat.mod_lt _ (Nat.zero_lt_of_lt hp), e3⟩

/-- Settles O10: with k at most 127, t1 lies in 128·n − 512 .. 128·n − 385. -/
theorem encodableIntegerPartsOfProperFractions : Obligations.EncodableIntegerPartsOfProperFractions := by
  intro n p q hp
  have hk := scaledFraction_floor p (Nat.ne_zero_of_lt hp)
  have hlt := scaledFraction_lt_of_lt hp
  have hP1 := P1Fits_iff_of_lt (n := n) hlt
  rw [packT1_eq]
  refine ⟨by omega, by omega, by omega, by omega, fun hq => ⟨?_, fun hn => ?_⟩, fun m hm => ?_⟩
  · rintro ⟨g, hg⟩
    obtain ⟨hfits, -⟩ := ((genpack_eq_ok_iff hk).1 hg).fits
    exact hP1.1 hfits
  · obtain ⟨g, hg, -⟩ := genpack_proper hp hq hn
    exact ⟨g, hg⟩
  · obtain ⟨h1, -⟩ := genpack_error_bits hk hm
    rw [h1, hP1]
    omega

/-! ### Improper fractions, and the denominator (R64, R65) -/

/-- A whole unit in the fraction is 128 in k (R64). -/
theorem scaledFraction_add_self (p : Nat) {q : Nat} (hq : q ≠ 0) :
    scaledFraction (p + q) q = scaledFraction p q + 128 := by
  unfold scaledFraction
  rw [Nat.mul_add, Nat.add_mul_div_right _ _ (Nat.pos_of_ne_zero hq)]

/-- A whole unit in the fraction does what one in the integer part does (R64). -/
theorem genpack_add_self (n p q : Nat) : genpack n (p + q) q = genpack (n + 1) p q := by
  by_cases hq : q = 0
  · subst hq
    simp only [genpack_zero]
  · have hT1 : packT1 n (p + q) q = packT1 (n + 1) p q := by
      rw [packT1_eq, packT1_eq, scaledFraction_add_self p hq]
      omega
    have hT2 : packT2 (p + q) q = packT2 p q := by
      rw [packT2_eq_mod, packT2_eq_mod, Nat.mul_add, Nat.add_mul_mod_self_right]
    unfold genpack
    rw [hT1, hT2]

/-- Settles O11: p = q is a zero numerator beside the next integer part. -/
theorem improperFractionCarriesIntoP1 : Obligations.ImproperFractionCarriesIntoP1 := by
  refine ⟨genpack_add_self, fun n q hq0 hq hn0 hn => ?_⟩
  obtain ⟨g, hg, hlow, hhigh, -, hP3⟩ := genpack_proper (n := n + 1) hq0 hq ⟨by omega, by omega⟩
  obtain ⟨k, hk, hold⟩ := genpack_ok_hold hg
  obtain ⟨hP2, hP1⟩ := hold.of_zero_numerator hk
  have hcarry := genpack_add_self n 0 q
  rw [Nat.zero_add, hg] at hcarry
  exact ⟨g, hcarry, by omega, congrArg BitVec.toNat hP2, hP3⟩

/-- P3 is the denominator as given (R65). -/
theorem genpack_ok_p3 {n p q : Nat} {g : PackedFields} (h : genpack n p q = .ok g) : g.p3.toNat = q := by
  obtain ⟨k, -, -, -, hP3⟩ := genpack_ok_hold h
  exact hP3

/-- Settles O12: P3 of a good result, and the rule's two encodings of 8 + 1/2. -/
theorem denominatorIsNeverReduced : Obligations.DenominatorIsNeverReduced :=
  ⟨fun _ _ _ _ => genpack_ok_p3, by decide, by decide⟩

/-- Settles O16: each pair of fields is what the command writes, and P3 tells any other denominator from the sentinel. -/
theorem fourOverOneIsTheSentinel : Obligations.FourOverOneIsTheSentinel := by
  refine ⟨by decide, fun p q r r' s => ⟨pllFields sentinel, sentinelFields p, ?_, ?_, rfl, rfl, rfl⟩,
    fun q hq2 hq => ?_, fun q hq1 he => hq1 (genpack_ok_p3 he).symm⟩
  · exact execEncpll_ok r s (by decide)
  · exact execEncms_sentinel p q r' s
  · obtain ⟨g, hg, -, -, -, hP3⟩ := genpack_proper (n := 4) (p := 0) (by omega) hq (by decide)
    refine ⟨g, hg, hP3, ?_⟩
    rintro rfl
    exact absurd hP3 (Nat.ne_of_lt hq2)

/-! ### UNPACK (R68) -/

/-- That P3 is not 0 follows from P2 < P3. -/
theorem PackedFields.validTriple_iff (g : PackedFields) :
    g.validTriple = true ↔ g.p2.toNat < g.p3.toNat ∧ (g.p2.toNat + g.p3.toNat * unpackK g) % 128 = 0 := by
  simp only [PackedFields.validTriple, Bool.and_eq_true, decide_eq_true_eq, Config.scale]
  omega

/-- BIAS added back to P1 is 128·n + k of what UNPACK gives (R68). -/
theorem p1_add_512_eq_unpack (g : PackedFields) : g.p1.toNat + 512 = 128 * unpackN g + unpackK g :=
  (Nat.div_add_mod (g.p1.toNat + 512) 128).symm

theorem unpackK_lt (g : PackedFields) : unpackK g < 128 :=
  Nat.mod_lt _ (by decide)

section unpack
variable {g : PackedFields} (h : g.validTriple = true)
include h

/-- The fields of a valid triple hold the three values of what UNPACK gives (R68). -/
theorem hold_unpack : g.Hold (unpackN g) (unpackK g) (unpackP g) (unpackQ g) := by
  obtain ⟨-, hdvd⟩ := g.validTriple_iff.1 h
  exact ⟨p1_add_512_eq_unpack g, (Nat.mul_div_cancel' (Nat.dvd_of_mod_eq_zero hdvd)).symm, rfl⟩

/-- UNPACK's k is the floor of the fraction it gives: P2 is below P3 (R68). -/
theorem isScaledFloor_unpack : IsScaledFloor (unpackK g) (unpackP g) (unpackQ g) := by
  obtain ⟨hlt, -⟩ := g.validTriple_iff.1 h
  obtain ⟨-, e2, e3⟩ := hold_unpack h
  unfold IsScaledFloor
  rw [Nat.add_mul, Nat.mul_comm (unpackK g)]
  omega

/-- UNPACK gives a proper fraction, for its k has 7 bits (R68). -/
theorem unpackP_lt_unpackQ : unpackP g < unpackQ g := by
  have hfloor := (isScaledFloor_unpack h).2
  have hk : (unpackK g + 1) * unpackQ g ≤ 128 * unpackQ g := Nat.mul_le_mul_right _ (unpackK_lt g)
  omega

end unpack

/-- Settles O14: the fields hold what the formula gives for the unpacked operands. -/
theorem repackingAnUnpackedTriple : Obligations.RepackingAnUnpackedTriple :=
  fun _ h => ⟨unpackP_lt_unpackQ h, (genpack_eq_ok_iff (isScaledFloor_unpack h)).2 (hold_unpack h)⟩

/-- Settles O15: k is below 128, so the sum in P1 splits into n and k, and 128·p is read off P2. -/
theorem unpackingAPackedRatio : Obligations.UnpackingAPackedRatio := by
  intro n p q g hp hg
  have hk := scaledFraction_floor p (Nat.ne_zero_of_lt hp)
  have hlt := scaledFraction_lt_of_lt hp
  have hold := (genpack_eq_ok_iff hk).1 hg
  have hvalid := hold.validTriple hk
  have hK : unpackK g = scaledFraction p q := hold.unpackK_eq.trans (Nat.mod_eq_of_lt hlt)
  obtain ⟨u1, u2, u3⟩ := hold_unpack hvalid
  obtain ⟨e1, e2, e3⟩ := hold
  have hQ : unpackQ g = q := e3
  rw [hK] at u1
  rw [hK, hQ] at u2
  exact ⟨hvalid, by omega, by omega, hQ⟩

/-! ### RDIVENC (R66) -/

/-- A logarithm fits RDIV (R66). -/
theorem IsDivider.toNat_ofNat {r j : Nat} (h : IsDivider r j) : (BitVec.ofNat 3 j).toNat = j :=
  (BitVec.toNat_ofNat j 3).trans (Nat.mod_eq_of_lt h.1)

theorem rdivenc_of_not_divider {r : Nat} (h : ∀ j, ¬IsDivider r j) : rdivenc r = .error ecRdiv := by
  obtain ⟨j, hj, -⟩ | ⟨-, he⟩ := rdivenc_cases r
  · exact absurd hj (h j)
  · exact he

/-- Settles O13: a post-divider is encodable exactly when it has a logarithm below 8. -/
theorem dividerFieldIsTheLogarithm : Obligations.DividerFieldIsTheLogarithm :=
  fun _ => ⟨fun _ hj => ⟨_, rdivenc_of_divider hj, hj.toNat_ofNat⟩, rdivenc_of_not_divider⟩

/-! ### The caller's settings (R67) -/

theorem DividerSetting.invariant_iff (x : DividerSetting) :
    x.invariant = true ↔
      (15 ≤ x.a ∧ x.a ≤ 90 ∧ 1 ≤ x.c ∧ x.c ≤ 1048575 ∧ x.b < x.c) ∧
        (x.d = 4 ∨ x.d = 6 ∨ 8 ≤ x.d ∧ x.d ≤ 900) ∧ 1 ≤ x.f ∧ x.f ≤ 1048575 ∧ x.e < x.f ∧ x.r ∈ encodableDividers := by
  simp [DividerSetting.invariant, DividerSetting.pllInvariant, DividerSetting.msInvariant, and_assoc, or_assoc]

theorem exists_isDivider_of_mem {r : Nat} (h : r ∈ encodableDividers) : ∃ j, IsDivider r j := by
  obtain ⟨j, hj, -⟩ | ⟨-, he⟩ := rdivenc_cases r
  · exact ⟨j, hj⟩
  · simp [rdivenc, h] at he

/-- Settles O30: the setting's integer parts and proper fractions are encodable, and its post-divider is. -/
theorem wellFormedSettingNeverFails : Obligations.WellFormedSettingNeverFails := by
  refine ⟨fun x s hx => ?_, by decide⟩
  obtain ⟨⟨ha, ha', -, hc, hb⟩, hd, -, hf, he, hr⟩ := x.invariant_iff.1 hx
  refine ⟨?_, fun hd4 => ?_, fun hd4 => ?_⟩
  · obtain ⟨g, hg, hlow, hhigh, hP2, hP3⟩ := genpack_proper (n := x.a) hb hc ⟨by omega, by omega⟩
    have hP1 : 1408 ≤ g.p1.toNat ∧ g.p1.toNat ≤ 11135 := by omega
    exact ⟨pllFields g, execEncpll_ok 0 s hg, hP1.1, hP1.2, hP2, hP3⟩
  · obtain ⟨g, hg, hlow, hhigh, hP2, hP3⟩ := genpack_proper (n := x.d) he hf ⟨by omega, by omega⟩
    obtain ⟨j, hj⟩ := exists_isDivider_of_mem hr
    have hP1 : 256 ≤ g.p1.toNat ∧ g.p1.toNat ≤ 114815 := by omega
    refine ⟨generalFields x.e g (BitVec.ofNat 3 j), ?_, hP1.1, hP1.2, hP2, hP3⟩
    rw [DividerSetting.msCommand, execEncms_general hd4, hg, rdivenc_of_divider hj]
    exact execGeneral_ok ..
  · rw [DividerSetting.msCommand, hd4]
    exact execEncms_sentinel ..

end Sys2Proof.Machine
end

section
/-! Proofs of the family 41_encpll: ENCPLL writes what GENPACK gives, with no divide-by-4 mode and none of the solver's
checks. -/

namespace Sys2Proof.Machine

/-- Settles O17: ENCPLL ends as GENPACK does, with a zero denominator, with every bound kept, and with a bound failed. -/
theorem encpllPacksTheRatio : Obligations.EncpllPacksTheRatio := by
  refine fun n p q r s => ⟨?_, fun k h => ⟨fun h1 h2 h3 => ?_, fun hf => ?_⟩⟩
  · rintro rfl
    exact execEncpll_error r s (genpack_zero n p)
  · obtain ⟨g, hg, hold⟩ := genpack_ok h h1 h2 h3
    exact ⟨g, hold, execEncpll_ok r s hg⟩
  · have he := genpack_error h hf
    exact ⟨_, execEncpll_error r s he, genpack_error_bits h he⟩

/-- Settles O18: N = 4 takes the path of every N, and GENPACK gives the fields of the two examples; ENCMS takes the
sentinel path. -/
theorem encpllHasNoDivideByFour : Obligations.EncpllHasNoDivideByFour :=
  fun r s => ⟨fun _ _ _ hg => execEncpll_ok r s hg, fun _ _ _ he => execEncpll_error r s he,
    execEncpll_ok r s (by decide), execEncpll_ok r s (by decide), execEncms_sentinel 1 2 1 s⟩

/-! ### The solver's checks (R71, R81, R100) -/

/-- ENCMS of a ratio and a post-divider that can both be encoded (R78). -/
theorem execEncms_ok {n p q r j : Nat} {g : PackedFields} (hn : n ≠ 4) (s : State) (hg : genpack n p q = .ok g)
    (hj : IsDivider r j) :
    exec (.encms n p q r) s = .next (writeRes (.ok (generalFields p g (BitVec.ofNat 3 j))) s) := by
  rw [execEncms_general hn, hg, rdivenc_of_divider hj, execGeneral_ok]

namespace DividerSetting
variable {x : DividerSetting}

/-- The check of a is the first (R100, log 7), so the other fields do not matter. -/
theorem validate_of_a_out_of_range (ha : ¬(15 ≤ x.a ∧ x.a ≤ 90)) : x.validate = .error .pllDividerRangeError :=
  if_pos ha

/-- The check of d, once a and b have passed theirs (R100, log 7). -/
theorem validate_of_d_out_of_range (ha : 15 ≤ x.a ∧ x.a ≤ 90) (hb : x.b ≤ 1048575)
    (hd : ¬(4 ≤ x.d ∧ x.d ≤ 900 ∧ x.d ≠ 5 ∧ x.d ≠ 7)) : x.validate = .error .multisynthDividerRangeError := by
  rw [validate, if_neg (not_not_intro ha), if_neg (not_not_intro hb), if_pos hd]

end DividerSetting

/-- Settles O29: GENPACK and RDIVENC accept each operand, and each setting fails its one range check. -/
theorem solverChecksAreNotRepeated : Obligations.SolverChecksAreNotRepeated := by
  have div1 : IsDivider 1 0 := ⟨by decide, rfl⟩
  have div2 : IsDivider 2 1 := ⟨by decide, rfl⟩
  refine fun s => ⟨fun r => execEncpll_ok r s (by decide), fun r => execEncpll_ok r s (by decide),
    execEncms_ok (by decide) s (by decide) div1, execEncms_ok (by decide) s (by decide) div2,
    execEncms_ok (by decide) s (by decide) div1, fun _ _ _ _ _ _ => ?_, fun _ _ _ _ _ _ => ?_, ?_, ?_, ?_⟩
  · exact DividerSetting.validate_of_a_out_of_range (show ¬(15 ≤ 14 ∧ 14 ≤ 90) by decide)
  · exact DividerSetting.validate_of_a_out_of_range (show ¬(15 ≤ 91 ∧ 91 ≤ 90) by decide)
  · exact DividerSetting.validate_of_d_out_of_range (by decide) (by decide) (by decide)
  · exact DividerSetting.validate_of_d_out_of_range (by decide) (by decide) (by decide)
  · exact DividerSetting.validate_of_d_out_of_range (by decide) (by decide) (by decide)

end Sys2Proof.Machine
end

section
/-! Proofs of the family 42_encms: the sentinel path, and the general path, whose mask is the union of what GENPACK and
RDIVENC found. -/

namespace Sys2Proof.Machine

/-- Settles O19: the detector takes N = 4 to the sentinel, whatever Q and R are. -/
theorem encmsSentinelPath : Obligations.EncmsSentinelPath :=
  execEncms_sentinel

/-! ### When a part of the general path fails (R56, R60, R66) -/

/-- GENPACK fails with a zero denominator or with a bound that is not kept (R56, R60). -/
theorem genpack_error_iff (n p q : Nat) :
    (∃ m, genpack n p q = .error m) ↔
      q = 0 ∨ ∃ k, IsScaledFloor k p q ∧ ¬(P1Fits n k ∧ P2Fits k p q ∧ P3Fits q) := by
  constructor
  · rintro ⟨m, hm⟩
    obtain ⟨hq, -⟩ | ⟨k, g, -, -, -, -, hg, -⟩ | ⟨k, h, hf, -⟩ := genpack_cases n p q
    · exact .inl hq
    · rw [hg] at hm
      cases hm
    · exact .inr ⟨k, h, hf⟩
  · rintro (rfl | ⟨k, h, hf⟩)
    · exact ⟨_, genpack_zero n p⟩
    · exact ⟨_, genpack_error h hf⟩

theorem rdivenc_error_iff (r : Nat) : rdivenc r = .error ecRdiv ↔ ∀ j, ¬IsDivider r j := by
  refine ⟨fun he j hj => ?_, rdivenc_of_not_divider⟩
  rw [rdivenc_of_divider hj] at he
  cases he

/-- The failures of the two parts are the failed checks (R78). -/
theorem generalPath_fails_iff (n p q r : Nat) :
    ((∃ m, genpack n p q = .error m) ∨ rdivenc r = .error ecRdiv) ↔
      q = 0 ∨ (∀ j, ¬IsDivider r j) ∨ ∃ k, IsScaledFloor k p q ∧ ¬(P1Fits n k ∧ P2Fits k p q ∧ P3Fits q) := by
  rw [genpack_error_iff, rdivenc_error_iff, or_right_comm, or_assoc]

/-! ### The general path of ENCMS (R78, R83) -/

/-- ENCMS ends in the union of the two masks when GENPACK or RDIVENC fails (R83). -/
theorem execEncms_error {n p q r : Nat} (hn : n ≠ 4) (s : State)
    (hfail : (∃ m, genpack n p q = .error m) ∨ rdivenc r = .error ecRdiv) :
    exec (.encms n p q r) s =
      .next (writeRes (.err (maskOf (genpack n p q) ||| maskOf (rdivenc r))) s) := by
  rw [execEncms_general hn]
  obtain ⟨m, hm⟩ | hd := hfail
  · rw [hm]
    exact execGeneral_error_left ..
  · rw [hd]
    exact execGeneral_error_right ..

/-- With neither part failed there are packed fields and a logarithm. -/
theorem exists_fields_and_divider {n p q r : Nat}
    (hpass : ¬((∃ m, genpack n p q = .error m) ∨ rdivenc r = .error ecRdiv)) :
    ∃ g j, genpack n p q = .ok g ∧ IsDivider r j := by
  obtain ⟨hg, hd⟩ := not_or.1 hpass
  obtain ⟨j, hj, -⟩ | ⟨-, he⟩ := rdivenc_cases r
  · cases h : genpack n p q with
    | ok g => exact ⟨g, j, rfl, hj⟩
    | error m => exact absurd ⟨m, h⟩ hg
  · exact absurd he hd

/-! ### The union of the two masks, bit by bit (R17, R83) -/

/-- GENPACK's part of the mask names each failed bound, and is 0 when none failed (R60). -/
theorem maskOf_genpack_bits {n k p q : Nat} (h : IsScaledFloor k p q) :
    ((maskOf (genpack n p q)).getLsbD 0 = true ↔ ¬P1Fits n k) ∧
      ((maskOf (genpack n p q)).getLsbD 1 = true ↔ ¬P2Fits k p q) ∧
      ((maskOf (genpack n p q)).getLsbD 2 = true ↔ ¬P3Fits q) ∧
      (maskOf (genpack n p q)).getLsbD 3 = false ∧ (maskOf (genpack n p q)).getLsbD 4 = false := by
  cases hg : genpack n p q with
  | ok g =>
    obtain ⟨h1, h2, h3⟩ := ((genpack_eq_ok_iff h).1 hg).fits
    simp [maskOf, h1, h2, h3]
  | error m => exact genpack_error_bits h hg

/-- RDIVENC's part of the mask is EC_RDIV or nothing (R66). -/
theorem maskOf_rdivenc_bits (r : Nat) :
    (∀ i < 4, (maskOf (rdivenc r)).getLsbD i = false) ∧
      ((maskOf (rdivenc r)).getLsbD 4 = true ↔ ¬∃ j, IsDivider r j) := by
  obtain ⟨j, hj, hd⟩ | ⟨hno, hd⟩ := rdivenc_cases r <;> rw [hd]
  · have : ∃ j, IsDivider r j := ⟨j, hj⟩
    simp [maskOf, this]
  · have : ¬∃ j, IsDivider r j := not_exists.2 hno
    simp only [maskOf, this, not_false_eq_true, iff_true]
    decide

/-- The mask of the general path names each failed check and nothing else (R83). -/
theorem generalMask_bits {n k p q : Nat} (h : IsScaledFloor k p q) (r : Nat) :
    ((maskOf (genpack n p q) ||| maskOf (rdivenc r)).getLsbD 0 = true ↔ ¬P1Fits n k) ∧
      ((maskOf (genpack n p q) ||| maskOf (rdivenc r)).getLsbD 1 = true ↔ ¬P2Fits k p q) ∧
      ((maskOf (genpack n p q) ||| maskOf (rdivenc r)).getLsbD 2 = true ↔ ¬P3Fits q) ∧
      (maskOf (genpack n p q) ||| maskOf (rdivenc r)).getLsbD 3 = false ∧
      ((maskOf (genpack n p q) ||| maskOf (rdivenc r)).getLsbD 4 = true ↔ ¬∃ j, IsDivider r j) := by
  obtain ⟨b0, b1, b2, b3, b4⟩ := maskOf_genpack_bits (n := n) h
  obtain ⟨low, high⟩ := maskOf_rdivenc_bits r
  simp only [BitVec.getLsbD_or, low 0 (by decide), low 1 (by decide), low 2 (by decide), low 3 (by decide), b3, b4,
    Bool.or_false, Bool.false_or, true_and]
  exact ⟨b0, b1, b2, high⟩

/-- With a zero denominator no bound is evaluated: the mask is EC_DIV0, with EC_RDIV when R is not encodable (R56, R83). -/
theorem generalMask_zero (n p r : Nat) :
    maskOf (genpack n p 0) ||| maskOf (rdivenc r) = 0b01000#5 ∧ (∃ j, IsDivider r j) ∨
      maskOf (genpack n p 0) ||| maskOf (rdivenc r) = 0b11000#5 ∧ ¬∃ j, IsDivider r j := by
  obtain ⟨j, hj, hd⟩ | ⟨hno, hd⟩ := rdivenc_cases r <;> rw [genpack_zero, hd]
  · exact .inl ⟨BitVec.or_zero, j, hj⟩
  · exact .inr ⟨rfl, not_exists.2 hno⟩

/-- Settles O20: the zero denominator, every check passed, and a check failed. -/
theorem encmsGeneralPath : Obligations.EncmsGeneralPath := by
  refine fun n p q r s hn => ⟨?_, fun k h => ⟨fun j h1 h2 h3 hj => ?_, fun hf => ?_⟩⟩
  · rintro rfl
    exact ⟨_, execEncms_error hn s (.inl ⟨_, genpack_zero n p⟩), generalMask_zero n p r⟩
  · obtain ⟨g, hg, hold⟩ := genpack_ok h h1 h2 h3
    exact ⟨_, execEncms_ok hn s hg hj, hold, rfl, rfl, hj.toNat_ofNat⟩
  · have hfail : (∃ m, genpack n p q = .error m) ∨ rdivenc r = .error ecRdiv := by
      by_cases hd : ∃ j, IsDivider r j
      · exact .inl ⟨_, genpack_error h fun ⟨h1, h2, h3⟩ => hf ⟨h1, h2, h3, hd⟩⟩
      · exact .inr (rdivenc_of_not_divider (not_exists.1 hd))
    exact ⟨_, execEncms_error hn s hfail, generalMask_bits h r⟩

/-- Settles O21: the sentinel path never fails, and the general path fails exactly when GENPACK or RDIVENC does. -/
theorem encmsFailsExactlyWhenACheckFails : Obligations.EncmsFailsExactlyWhenACheckFails := by
  intro n p q r s
  by_cases hn : n = 4
  · subst hn
    exact ⟨_, execEncms_sentinel p q r s, by simp, by simp⟩
  · rw [← generalPath_fails_iff]
    by_cases hfail : (∃ m, genpack n p q = .error m) ∨ rdivenc r = .error ecRdiv
    · exact ⟨_, execEncms_error hn s hfail, by simp [hn, hfail], by simp⟩
    · obtain ⟨g, j, hg, hj⟩ := exists_fields_and_divider hfail
      exact ⟨_, execEncms_ok hn s hg hj, by simp [hfail], by simp⟩

end Sys2Proof.Machine
end

section
/-! Proofs of the family 50_caller_context: the commands of the table of R105, and the good results they end in. -/

namespace Sys2Proof.Machine

/-! ### The rows of the table of R105 -/

theorem wellFormedHostCommand_encpll_iff (a b c r : Nat) :
    wellFormedHostCommand (.encpll a b c r) = true ↔
      (15 ≤ a ∧ a ≤ 90) ∧ (c = 1 ∧ b = 0 ∨ c = 1048575 ∧ b ≤ 1048575) := by
  simp [wellFormedHostCommand]

theorem wellFormedHostCommand_encms_iff (d e f r : Nat) :
    wellFormedHostCommand (.encms d e f r) = true ↔
      (e = 0 ∧ f = 1) ∧ (d = 4 ∧ r = 1 ∨ (d = 6 ∨ 8 ≤ d ∧ d ≤ 900) ∧ r ∈ encodableDividers) := by
  simp [wellFormedHostCommand]

/-! ### Every row ends in a good result -/

/-- GENPACK encodes a fraction of at most 1: a proper one (R63), or p = q as the next integer part (R64). -/
theorem exists_genpack_ok_of_le {n p q : Nat} (hpq : p ≤ q) (hq0 : 1 ≤ q) (hq : q ≤ 1048575) (hn : 4 ≤ n ∧ n ≤ 2050) :
    ∃ g, genpack n p q = .ok g := by
  obtain hlt | rfl := Nat.lt_or_eq_of_le hpq
  · obtain ⟨g, hg, -⟩ := genpack_proper (n := n) hlt hq ⟨hn.1, by omega⟩
    exact ⟨g, hg⟩
  · obtain ⟨-, hunit⟩ := improperFractionCarriesIntoP1
    obtain ⟨g, hg, -⟩ := hunit n p hq0 hq (by omega) hn.2
    exact ⟨g, hg⟩

/-- ENCMS of an encodable integer part alone has INT = 1: in divide-by-4 mode (R77) and in the general path (R78, R79). -/
theorem execEncms_integer {n r : Nat} (hn : 4 ≤ n ∧ n ≤ 2051) (hr : r ∈ encodableDividers) (s : State) :
    ∃ f : Fields, exec (.encms n 0 1 r) s = .next (writeRes (.ok f) s) ∧ f.int = true := by
  by_cases h4 : n = 4
  · subst h4
    exact ⟨sentinelFields 0, execEncms_sentinel 0 1 r s, rfl⟩
  · obtain ⟨g, hg, -⟩ := genpack_proper (p := 0) (q := 1) (by decide) (by decide) hn
    obtain ⟨j, hj⟩ := exists_isDivider_of_mem hr
    exact ⟨generalFields 0 g (BitVec.ofNat 3 j), execEncms_ok h4 s hg hj, rfl⟩

/-- Settles O31: ENCPLL's fractions are at most 1, b = c included, and ENCMS gets an integer with an encodable divider. -/
theorem wellFormedHostGetsGoodResults : Obligations.WellFormedHostGetsGoodResults := by
  intro i s hi
  cases i with
  | encpll a b c r =>
    obtain ⟨ha, hbc⟩ := (wellFormedHostCommand_encpll_iff a b c r).1 hi
    obtain ⟨g, hg⟩ : ∃ g, genpack a b c = .ok g :=
      exists_genpack_ok_of_le (by omega) (by omega) (by omega) (by omega)
    exact ⟨pllFields g, execEncpll_ok r s hg, nofun⟩
  | encms d e f r =>
    obtain ⟨⟨rfl, rfl⟩, hdr⟩ := (wellFormedHostCommand_encms_iff d e f r).1 hi
    have hd : 4 ≤ d ∧ d ≤ 2051 := by omega
    have hr : r ∈ encodableDividers := by
      obtain ⟨-, rfl⟩ | ⟨-, hr⟩ := hdr
      · decide
      · exact hr
    obtain ⟨fields, hexec, hint⟩ := execEncms_integer hd hr s
    exact ⟨fields, hexec, fun _ => hint⟩

end Sys2Proof.Machine
end

section
/-! Proofs of the family 60_exceptions: the masks that commands of the least OPW reach, the error as an ordinary result, and
which of the host's actions complete. -/

namespace Sys2Proof.Machine

/-! ### Presented commands and the error (R112, R114, R118) -/

/-- Settles O25: the step writes the command's result, which is Ok or Err. -/
theorem everyPresentedCommandCompletes : Obligations.EveryPresentedCommandCompletes :=
  fun _ w _ h => ⟨resultOf (decode Config.opw w), step_present h, resultOf_valid_or_isErr _⟩

/-- No error is without a cause (R115). -/
theorem ne_zero_of_mem_msMasks {m : CauseMask} (h : m ∈ msMasks) : m ≠ 0#5 := by
  rintro rfl
  exact absurd h (by decide)

/-- A result is Ok with ERR and ECAUSE clear, or an error with the non-zero mask of its own causes (R14, R114). -/
theorem resultOf_status (i : Instr) :
    (resultOf i).valid = true ∧ (resultOf i).isErr = false ∧ (resultOf i).ecause = 0#5 ∨
      (resultOf i).valid = false ∧ resultOf i = .err (resultOf i).ecause ∧ (resultOf i).ecause ≠ 0#5 := by
  have hcompletes := resultOf_valid_or_isErr i
  cases hr : resultOf i with
  | empty => simp [hr] at hcompletes
  | ok f => exact .inl ⟨rfl, rfl, rfl⟩
  | err m => exact .inr ⟨rfl, rfl, ne_zero_of_mem_msMasks (exec_err_mem_msMasks (exec_eq i State.reset) hr)⟩

/-- Settles O28: a command writes the same result over an error as over Empty. -/
theorem errorIsNotSticky : Obligations.ErrorIsNotSticky :=
  fun i _ _ => ⟨resultOf i, exec_eq i _, exec_eq i _, resultOf_status i⟩

/-! ### Every mask is reached from OPW = 21 up (R6, R115) -/

/-- Ratios of the least OPW that fail, one for each mask of ENCPLL: n = 0 puts t1 below its range and n = 8 keeps it there,
q = 2^20 is too large for P3, and beside q = 2^21 − 1 the remainder 128·16383 is too large for P2. None has n = 4. -/
theorem exists_failing_ratio_minOpw {m : CauseMask} (hm : m ∈ pllMasks) :
    ∃ n p q, n ≠ 4 ∧ (n < 2 ^ Config.minOpw ∧ p < 2 ^ Config.minOpw ∧ q < 2 ^ Config.minOpw) ∧
      genpack n p q = .error m := by
  simp only [pllMasks, List.mem_cons, List.not_mem_nil, or_false] at hm
  obtain rfl | rfl | rfl | rfl | rfl | rfl := hm
  · exact ⟨0, 0, 1, by decide⟩
  · exact ⟨8, 0, 1048576, by decide⟩
  · exact ⟨0, 0, 1048576, by decide⟩
  · exact ⟨8, 16383, 2097151, by decide⟩
  · exact ⟨0, 16383, 2097151, by decide⟩
  · exact ⟨8, 0, 0, by decide⟩

/-- The masks of ENCMS: RDIVENC passes, or it alone fails, or GENPACK fails with it (R83, R115). -/
theorem msMasks_cases {m : CauseMask} (hm : m ∈ msMasks) :
    m ∈ pllMasks ∨ m = ecRdiv ∨ ∃ m' ∈ pllMasks, m = m' ||| ecRdiv := by
  have all : ∀ m ∈ msMasks, m ∈ pllMasks ∨ m = ecRdiv ∨ ∃ m' ∈ pllMasks, m = m' ||| ecRdiv := by decide
  exact all m hm

section reach
variable {opw : Nat} (hopw : Config.minOpw ≤ opw)
include hopw

/-- What fits the least OPW fits every OPW (R6). -/
theorem lt_two_pow_of_minOpw_le {x : Nat} (hx : x < 2 ^ Config.minOpw) : x < 2 ^ opw :=
  hx.trans_le (Nat.pow_le_pow_right Nat.two_pos hopw)

/-- Every mask of ENCPLL is GENPACK's for a ratio that fits OPW. -/
theorem exists_failing_ratio {m : CauseMask} (hm : m ∈ pllMasks) :
    ∃ n p q, n ≠ 4 ∧ (n < 2 ^ opw ∧ p < 2 ^ opw ∧ q < 2 ^ opw) ∧ genpack n p q = .error m := by
  obtain ⟨n, p, q, h4, ⟨hn, hp, hq⟩, hg⟩ := exists_failing_ratio_minOpw hm
  exact ⟨n, p, q, h4, ⟨lt_two_pow_of_minOpw_le hopw hn, lt_two_pow_of_minOpw_le hopw hp,
    lt_two_pow_of_minOpw_le hopw hq⟩, hg⟩

/-- ENCPLL reaches each of its masks. -/
theorem exists_encpll_err {m : CauseMask} (hm : m ∈ pllMasks) (s : State) :
    ∃ n p q r, (Instr.encpll n p q r).wellFormed opw = true ∧
      exec (.encpll n p q r) s = .next (writeRes (.err m) s) := by
  obtain ⟨n, p, q, -, ⟨hn, hp, hq⟩, hg⟩ := exists_failing_ratio hopw hm
  exact ⟨n, p, q, 0, (Instr.wellFormed_encpll_iff ..).2 ⟨hn, hp, hq, Nat.two_pow_pos opw⟩, execEncpll_error 0 s hg⟩

/-- The general path of ENCMS reaches each mask of GENPACK beside each outcome of RDIVENC (R83). -/
theorem exists_encms_err_of_genpack {m : CauseMask} (hm : m ∈ pllMasks) {r : Nat} (hr : r < 2 ^ opw) (s : State) :
    ∃ n p q, (Instr.encms n p q r).wellFormed opw = true ∧ n ≠ 4 ∧
      exec (.encms n p q r) s = .next (writeRes (.err (m ||| maskOf (rdivenc r))) s) := by
  obtain ⟨n, p, q, h4, ⟨hn, hp, hq⟩, hg⟩ := exists_failing_ratio hopw hm
  refine ⟨n, p, q, (Instr.wellFormed_encms_iff ..).2 ⟨hn, hp, hq, hr⟩, h4, ?_⟩
  rw [execEncms_general h4, hg, execGeneral_error_left]

/-- ENCMS reaches each of its masks: R = 1 adds nothing to a mask of GENPACK, R = 0 adds EC_RDIV. -/
theorem exists_encms_err {m : CauseMask} (hm : m ∈ msMasks) (s : State) :
    ∃ n p q r, (Instr.encms n p q r).wellFormed opw = true ∧ n ≠ 4 ∧
      exec (.encms n p q r) s = .next (writeRes (.err m) s) := by
  have fits {x : Nat} (hx : x < 2 ^ Config.minOpw) : x < 2 ^ opw := lt_two_pow_of_minOpw_le hopw hx
  obtain hpll | rfl | ⟨m', hpll, rfl⟩ := msMasks_cases hm
  · obtain ⟨n, p, q, hwf, h4, hexec⟩ := exists_encms_err_of_genpack hopw hpll (r := 1) (fits (by decide)) s
    have h1 : maskOf (rdivenc 1) = 0#5 := by decide
    rw [h1, BitVec.or_zero] at hexec
    exact ⟨n, p, q, 1, hwf, h4, hexec⟩
  · exact ⟨8, 0, 1, 0, (Instr.wellFormed_encms_iff ..).2
      ⟨fits (by decide), fits (by decide), fits (by decide), fits (by decide)⟩, by decide, rfl⟩
  · obtain ⟨n, p, q, hwf, h4, hexec⟩ := exists_encms_err_of_genpack hopw hpll (r := 0) (fits (by decide)) s
    exact ⟨n, p, q, 0, hwf, h4, hexec⟩

end reach

/-- Settles O26: where an error comes from bounds its mask, and each mask has a ratio and a post-divider that reach it. -/
theorem masksThatCanOccur : Obligations.MasksThatCanOccur := by
  refine ⟨fun i s t m h hr => ?_, fun opw s hopw =>
    ⟨fun m hm => exists_encpll_err hopw hm s, fun m hm => exists_encms_err hopw hm s⟩⟩
  have hms := exec_err_mem_msMasks h hr
  obtain ⟨n, p, q, r, rfl, hg⟩ | ⟨n, p, q, r, h4, rfl, -, -⟩ := exec_err_cases h hr
  · exact ⟨fun _ => genpack_error_mem_pllMasks hg, nofun⟩
  · exact ⟨nofun, fun _ => ⟨h4, hms⟩⟩

/-! ### Which steps complete (R118, R120) -/

/-- Settles O46, by the cases of a step. -/
theorem onlyInvalidDataReadsStopTheMachine : Obligations.OnlyInvalidDataReadsStopTheMachine := by
  intro s
  obtain ⟨-, h⟩ | ⟨_, _, -, h⟩ | ⟨_, -, h⟩ | ⟨_, _, _, -, -, h⟩ | hfault | ⟨_, -, h⟩ := step_cases s
  case inr.inr.inr.inr.inl => exact .inr hfault
  all_goals exact .inl ⟨_, h⟩

/-- A step with a read of a data port at hand faults while VALID = 0 (R16, R120; log 5). -/
theorem step_readPort_fault {s : State} {p : Port} {rest : List HostAction} (h : s.pending = .readPort p :: rest)
    (hp : ¬(p.isData = false ∨ s.res.valid = true)) : step s = .fault (.dataPortWithoutValue p) := by
  obtain ⟨v, hv, -⟩ | ⟨-, -, he⟩ := readPort_cases p { s with pending := rest }
  · have hnone : portValue s.res p = none := (portValue_eq_none _ _).2 (by simpa using hp)
    simp [hnone] at hv
  · rw [step_cons h]
    exact he

/-- `k` steps from `s` complete and leave no action pending. -/
def PerformsAll (k : Nat) (s : State) : Prop :=
  ∃ t, Host.Core.run Sys2Proof.core k s = .next t ∧ t.pending = []

theorem performsAll_zero {s : State} (h : s.pending = []) : PerformsAll 0 s :=
  ⟨s, run_zero s, h⟩

theorem performsAll_succ_iff {k : Nat} {s u : State} (h : step s = .next u) : PerformsAll (k + 1) s ↔ PerformsAll k u := by
  rw [PerformsAll, run_succ h, PerformsAll]

theorem not_performsAll_of_fault {k : Nat} {s : State} {f : Fault} (h : step s = .fault f) : ¬PerformsAll (k + 1) s := by
  rintro ⟨t, hrun, -⟩
  rw [run_fault h] at hrun
  cases hrun

/-- The first duty of R137 at a port read: this read keeps it, and so do the later actions. -/
theorem readsDataOnlyWhileValid_readPort (r : Res) (p : Port) (rest : List HostAction) :
    readsDataOnlyWhileValid r (.readPort p :: rest) = true ↔
      (p.isData = false ∨ r.valid = true) ∧ readsDataOnlyWhileValid r rest = true := by
  simp [readsDataOnlyWhileValid]

/-- The first duty of R137 is what it takes to perform every action: each action hands on RES as the duty assumes it, and a
port read goes on exactly when it keeps the duty. -/
theorem performsAll_iff_readsDataOnlyWhileValid (acts : List HostAction) :
    ∀ s : State, s.pending = acts → (PerformsAll acts.length s ↔ readsDataOnlyWhileValid s.res acts = true) := by
  induction acts with
  | nil => exact fun s hs => iff_of_true (performsAll_zero hs) rfl
  | cons a rest ih =>
    intro s hs
    cases a with
    | present w => exact (performsAll_succ_iff (step_present hs)).trans (ih _ rfl)
    | read => exact (performsAll_succ_iff (step_read hs)).trans (ih _ rfl)
    | readPort p =>
      rw [readsDataOnlyWhileValid_readPort]
      by_cases hp : p.isData = false ∨ s.res.valid = true
      · obtain ⟨v, -, he⟩ := step_readPort hs hp
        rw [and_iff_right hp]
        exact (performsAll_succ_iff he).trans (ih _ rfl)
      · exact iff_of_false (not_performsAll_of_fault (step_readPort_fault hs hp)) fun h => hp h.1
    | reset => exact (performsAll_succ_iff (step_reset hs)).trans (ih _ rfl)

/-- Settles O47. -/
theorem everyActionIsPerformed : Obligations.EveryActionIsPerformed :=
  fun s => (performsAll_iff_readsDataOnlyWhileValid s.pending s rfl).symm

end Sys2Proof.Machine
end

section
/-! PROOFS. Reset, unread results and several instances (spec/70_reset_and_hazards.md R130, R131, R133, R136, R139). -/

namespace Sys2Proof.Machine

/-! ### Reset, and results that are not read -/

/-- Settles O2: a reset writes Empty to RES and leaves every other field as it was. -/
theorem assertResetOnlyEmptiesRes : Obligations.AssertResetOnlyEmptiesRes :=
  assertReset_eq

/-- Settles O43, step by step: each of the two steps writes RES whole. -/
theorem unreadResultIsLost : Obligations.UnreadResultIsLost := by
  constructor
  · intro s w w' rest h
    rw [run_succ (step_present h), run_one (step_present rfl)]
  · intro s w rest h
    rw [run_succ (step_present h), run_one (step_reset rfl)]

/-! ### A result over any RES (R133) -/

theorem resultOf_ne_empty (i : Instr) : resultOf i ≠ .empty := by
  intro he
  simpa [he] using resultOf_valid_or_isErr i

/-- Settles O52: a command writes its result, over whatever RES held. -/
theorem commandLeavesALegalResult : Obligations.CommandLeavesALegalResult := by
  intro i s t h
  rw [exec_eq] at h
  cases h
  exact ⟨resultOf_legal i, resultOf_ne_empty i⟩

/-! ### Several instances (R139) -/

/-- The outcome at `k` advances once for each turn that the schedule gives it, whatever the others do. -/
theorem getElem_runSchedule {m : Nat} (schedule : List (Fin m)) (ys : Vector InstanceStatus m) (k : Fin m) :
    (runSchedule schedule ys)[k] = advance^[schedule.count k] ys[k] := by
  induction schedule generalizing ys with
  | nil => rfl
  | cons j rest ih =>
    rw [runSchedule_cons, ih, getElem_stepInstance]
    by_cases hjk : j = k
    · subst hjk
      rw [if_pos rfl, List.count_cons_self, Function.iterate_succ_apply]
    · rw [if_neg hjk, List.count_cons_of_ne hjk]

/-- Advancing from a state is a run of the machine: a fault or a refusal is a fixed point, and the run stops there too. -/
theorem iterate_advance_next (k : Nat) (s : State) : advance^[k] (.next s) = Host.Core.run Sys2Proof.core k s := by
  induction k generalizing s with
  | zero => rfl
  | succ k ih =>
    rw [Function.iterate_succ_apply, advance_next, run_succ_eq]
    cases step s with
    | next t => exact ih t
    | fault f => exact Function.iterate_fixed (advance_fault f) k
    | refused r => exact Function.iterate_fixed (advance_refused r) k

/-- Settles O49, for the outcome at `k` advances as often as it has turns, and advancing it is a run of its own. -/
theorem instancesDoNotInterfere : Obligations.InstancesDoNotInterfere := by
  refine fun m schedule => ⟨fun xs k => ?_, fun ys j k hjk => ?_⟩
  · rw [getElem_runSchedule, ← iterate_advance_next, Fin.getElem_fin, Fin.getElem_fin, Vector.getElem_map]
  · rw [getElem_stepInstance, if_neg hjk]

end Sys2Proof.Machine
end

section
/-! PROOFS. Reads of single ports (spec/10_state.md R16) and the written-out words of spec/95_test_vectors.md section 2.6. -/

namespace Sys2Proof.Machine

/-- Settles O4: the two cases of a port read are those of `portValue_eq_none`, and the step follows them. -/
theorem dataPortsHaveNoValueWhileInvalid : Obligations.DataPortsHaveNoValueWhileInvalid := by
  refine fun s p rest h => ⟨fun hd hv => ⟨?_, ?_⟩, step_readPort h⟩
  · exact (portValue_eq_none s.res p).2 ⟨hd, hv⟩
  · exact step_readPort_fault h (by simp [hd, hv])

/-- To decode a given word it is enough to encode the command it should be (R46). -/
theorem decode_eq_of_encode_eq {opw : Nat} {i : Instr} {w : CommandWord opw} (hi : i.wellFormed opw = true)
    (hw : encode opw i = w) : decode opw w = i :=
  hw ▸ decode_encode hi

/-- Settles O36: each word is the encoding of its command, whose operands fit 32 bits. -/
theorem writtenOutWordsDecode : Obligations.WrittenOutWordsDecode := by
  refine ⟨?_, ?_, ?_, ?_⟩ <;> exact decode_eq_of_encode_eq (by decide) (by decide)

end Sys2Proof.Machine
end
